-- ==== Sys2Proof/Word.lean ====
section
/-! DEFINITION. The bit-vector types of the hardware: the 32-bit word and the fields of an instruction word
(spec/00_scope.md R3, spec/30_encoding.md R62). Arithmetic on them is Lean's own, modulo the width. -/

namespace Sys2Proof

/-- A register, a data-memory word, a pc or an instruction word: one 32-bit vector (R10, R16, R20, R60). -/
abbrev Word := BitVec 32

/-- A register index or a data-memory word index: 5 bits, so 0 to 31 (R10, R20, R62). -/
abbrev Index := BitVec 5

/-- The `opcode` field (R62). -/
abbrev Opcode := BitVec 6

/-- The `funct` field (R62). -/
abbrev Funct := BitVec 6

/-- The raw `immediate` field, unsigned out of the decoder (R62, R66). -/
abbrev Imm := BitVec 16

/-- The `address` field of J and JAL (R62). -/
abbrev JumpField := BitVec 26

end Sys2Proof
end

