-- ==== Sys2Proof/Config.lean ====
section
/-! DEFINITION. The fixed sizes of the hardware (spec/00_scope.md R3: "None of these is configurable"). The spec
leaves no value open (spec/93_implementation_defined.md: a model "needs no draw, no oracle and no scheduler"), so
there is no free value here. -/

namespace Sys2Proof.Config

/-- The number of general registers (R3, R10). -/
def numRegs : Nat := 32

/-- The number of data-memory words (R3, R20). -/
def dmemWords : Nat := 32

/-- The most items an instruction memory holds, since the fetch index has 30 bits (R153, decision D16).
DESIGN CHOICE (the spec's own decision; log 18), safe. -/
def maxProgramItems : Nat := 2 ^ 30

/-- The number of characters of one item of the instruction source (R151). -/
def itemChars : Nat := 32

/-- A 5-bit index names a register (R10: `0 <= i <= 31`). -/
theorem index_lt_numRegs (i : Index) : i.toNat < numRegs := i.isLt

end Sys2Proof.Config
end

