-- ==== Sys2Proof/Syntax.lean ====
section
/-! DEFINITION. The twelve instructions (spec/00_scope.md R2; one constructor per row of spec/opcode_table.json)
and the items of the instruction source (spec/50_interfaces.md R151). -/

namespace Sys2Proof

/-- The instruction set, operands in the order of the spec's listings (R76). Fields the hardware ignores (`shamt`;
`rt` and `rd` of JR) are not operands: "Two words that differ only in ignored bits are the same instruction with the
same effect" (R71; DEDUCED, safe, log 23). -/
inductive Instr where
  /-- `add rd, rs, rt` (R121) -/
  | add (rd rs rt : Index)
  /-- `sub rd, rs, rt` (R122) -/
  | sub (rd rs rt : Index)
  /-- `and rd, rs, rt` (R123) -/
  | and (rd rs rt : Index)
  /-- `or rd, rs, rt` (R124) -/
  | or (rd rs rt : Index)
  /-- `slt rd, rs, rt` (R125) -/
  | slt (rd rs rt : Index)
  /-- `nor rd, rs, rt` (R126) -/
  | nor (rd rs rt : Index)
  /-- `lw rt, imm(rs)` (R131) -/
  | lw (rt : Index) (imm : Imm) (rs : Index)
  /-- `sw rt, imm(rs)` (R132) -/
  | sw (rt : Index) (imm : Imm) (rs : Index)
  /-- `beq rs, rt, imm` (R135) -/
  | beq (rs rt : Index) (imm : Imm)
  /-- `j a` (R136) -/
  | j (address : JumpField)
  /-- `jal a` (R137) -/
  | jal (address : JumpField)
  /-- `jr rs` (R138) -/
  | jr (rs : Index)
  deriving DecidableEq, Repr

/-- One item of the instruction source as the instruction memory holds it: "The hardware's unit is the 32-bit word;
the string is its most-significant-bit-first spelling at the instruction-source interface" (C11, R50). An item whose
text is not 32 characters of '0' and '1' is kept as malformed, for the step that fetches it to abort on (R175). -/
inductive Item where
  | word (w : Word)
  | malformed
  deriving DecidableEq, Repr

end Sys2Proof
end

