-- ==== Sys2Proof/WellFormed.lean ====
section
/-! DEFINITION. What the spec requires of the things handed to the CORE: the text of an item, the length of a
program, and the operands of an instruction. The pre-load's index check stands with the pre-load, in
Machine/Interface.lean, since the hook itself makes it (R155). -/

namespace Sys2Proof

/-- A character of an item's text: '0' or '1' (spec/50_interfaces.md R151). -/
def isBinaryChar (c : Char) : Bool := c == '0' || c == '1'

/-- "each string MUST be exactly 32 characters of '0'/'1'" (R151). -/
def itemTextWellFormed (text : List Char) : Bool :=
  text.length == Config.itemChars && text.all isBinaryChar

/-- A program is finite and holds at most 2^30 items (R153, decision D16). -/
def programWellFormed (program : List Item) : Bool :=
  decide (program.length ≤ Config.maxProgramItems)

/-- Well-formed operands. The fields are "plain indices" and raw fields whose types have the encoding's own widths
(R62), and the hardware "trusts the encoding" (R71), so no operand value is ill formed: each arm is `true`. -/
def Instr.wellFormed : Instr → Bool
  | .add _ _ _ => true
  | .sub _ _ _ => true
  | .and _ _ _ => true
  | .or _ _ _ => true
  | .slt _ _ _ => true
  | .nor _ _ _ => true
  | .lw _ _ _ => true
  | .sw _ _ _ => true
  | .beq _ _ _ => true
  | .j _ => true
  | .jal _ => true
  | .jr _ => true

end Sys2Proof
end

