-- ==== Sys2Proof/Decode.lean ====
section
/-! DEFINITION. The InstructionDecoder: the eight fields of a word (spec/30_encoding.md R62), the opcode map
(R69, R70), decoding with its two rejections by name (R72, R73), the text form of an item (R50, R61), and the encoder
written from the same tables. -/

namespace Sys2Proof

/-! ### The eight fields (R62) -/

/-- `bits[31:26]` -/
def opcodeOf (w : Word) : Opcode := w.extractLsb' 26 6
/-- `bits[25:21]` -/
def rsOf (w : Word) : Index := w.extractLsb' 21 5
/-- `bits[20:16]` -/
def rtOf (w : Word) : Index := w.extractLsb' 16 5
/-- `bits[15:11]` -/
def rdOf (w : Word) : Index := w.extractLsb' 11 5
/-- `bits[10:6]`, "unused by supported ops" -/
def shamtOf (w : Word) : BitVec 5 := w.extractLsb' 6 5
/-- `bits[5:0]` -/
def functOf (w : Word) : Funct := w.extractLsb' 0 6
/-- `bits[15:0]`, raw and unsigned -/
def immOf (w : Word) : Imm := w.extractLsb' 0 16
/-- `bits[25:0]`, raw and unsigned -/
def addressOf (w : Word) : JumpField := w.extractLsb' 0 26

/-! ### The opcode map (R69) and the funct map (R70) -/

def opRType : Opcode := 0
def opJ : Opcode := 2
def opJal : Opcode := 3
def opBeq : Opcode := 4
def opLw : Opcode := 35
def opSw : Opcode := 43

def fnJr : Funct := 8
def fnAdd : Funct := 32
def fnSub : Funct := 34
def fnAnd : Funct := 36
def fnOr : Funct := 37
def fnNor : Funct := 39
def fnSlt : Funct := 42

/-- Why a fetched item decodes to no instruction, in the order of detection (R170, R179). -/
inductive Reject where
  /-- the item is not 32 characters of '0' and '1' (R175) -/
  | malformedInstruction
  /-- the opcode is none of 0, 2, 3, 4, 35, 43 (R72, R171) -/
  | unsupportedOpcode (opcode : Opcode)
  /-- opcode 0 and the funct is none of 8, 32, 34, 36, 37, 39, 42 (R73, R172) -/
  | unsupportedFunction (opcode : Opcode) (funct : Funct)
  deriving DecidableEq, Repr

/-- The R-type words, chosen by `funct` alone (R70, R71, R73). -/
def decodeRType (w : Word) : Except Reject Instr :=
  let fn := functOf w
  if fn = fnAdd then .ok (.add (rdOf w) (rsOf w) (rtOf w))
  else if fn = fnSub then .ok (.sub (rdOf w) (rsOf w) (rtOf w))
  else if fn = fnAnd then .ok (.and (rdOf w) (rsOf w) (rtOf w))
  else if fn = fnOr then .ok (.or (rdOf w) (rsOf w) (rtOf w))
  else if fn = fnSlt then .ok (.slt (rdOf w) (rsOf w) (rtOf w))
  else if fn = fnNor then .ok (.nor (rdOf w) (rsOf w) (rtOf w))
  else if fn = fnJr then .ok (.jr (rsOf w))
  else .error (.unsupportedFunction opRType fn)

/-- Every word, chosen by `opcode` and, for opcode 0, `funct` (R69 to R73). -/
def decode (w : Word) : Except Reject Instr :=
  let op := opcodeOf w
  if op = opRType then decodeRType w
  else if op = opLw then .ok (.lw (rtOf w) (immOf w) (rsOf w))
  else if op = opSw then .ok (.sw (rtOf w) (immOf w) (rsOf w))
  else if op = opBeq then .ok (.beq (rsOf w) (rtOf w) (immOf w))
  else if op = opJ then .ok (.j (addressOf w))
  else if op = opJal then .ok (.jal (addressOf w))
  else .error (.unsupportedOpcode op)

/-- The decoder on an item as fetched: a malformed one "fails with a decode error" (R85, R175). -/
def decodeItem : Item → Except Reject Instr
  | .word w => decode w
  | .malformed => .error .malformedInstruction

/-! ### The text form of an item (R50, R61) -/

/-- The number a string of '0' and '1' spells, most significant character first. -/
def binaryValue (text : List Char) : Nat :=
  text.foldl (fun n c => 2 * n + (if c = '1' then 1 else 0)) 0

/-- An item of the instruction source from its text (R151): "character `k` is bit `31-k`" (R61). -/
def itemOfText (text : List Char) : Item :=
  if itemTextWellFormed text then .word (BitVec.ofNat 32 (binaryValue text)) else .malformed

/-- The text that spells a word, bit 31 first (R61). -/
def textOfWord (w : Word) : List Char :=
  (List.range Config.itemChars).map fun k => if w.getLsbD (31 - k) then '1' else '0'

/-! ### The encoder, from the same tables -/

/-- R-format (R63), with `shamt` 0. -/
def encodeR (rs rt rd : Index) (fn : Funct) : Word :=
  opRType ++ rs ++ rt ++ rd ++ (0 : BitVec 5) ++ fn

/-- I-format (R64). -/
def encodeI (op : Opcode) (rs rt : Index) (imm : Imm) : Word :=
  op ++ rs ++ rt ++ imm

/-- J-format (R65). -/
def encodeJ (op : Opcode) (address : JumpField) : Word :=
  op ++ address

/-- The word of an instruction, every ignored bit 0 (R63 to R65, R76). -/
def encode : Instr → Word
  | .add rd rs rt => encodeR rs rt rd fnAdd
  | .sub rd rs rt => encodeR rs rt rd fnSub
  | .and rd rs rt => encodeR rs rt rd fnAnd
  | .or rd rs rt => encodeR rs rt rd fnOr
  | .slt rd rs rt => encodeR rs rt rd fnSlt
  | .nor rd rs rt => encodeR rs rt rd fnNor
  | .lw rt imm rs => encodeI opLw rs rt imm
  | .sw rt imm rs => encodeI opSw rs rt imm
  | .beq rs rt imm => encodeI opBeq rs rt imm
  | .j address => encodeJ opJ address
  | .jal address => encodeJ opJal address
  | .jr rs => encodeR rs 0 0 fnJr

/-! ### The rows of the opcode table (R70's table of masks and matches) -/

/-- An instruction's mnemonic, as spec/opcode_table.json spells it. -/
def mnemonicOf : Instr → String
  | .add _ _ _ => "ADD"
  | .sub _ _ _ => "SUB"
  | .and _ _ _ => "AND"
  | .or _ _ _ => "OR"
  | .slt _ _ _ => "SLT"
  | .nor _ _ _ => "NOR"
  | .lw _ _ _ => "LW"
  | .sw _ _ _ => "SW"
  | .beq _ _ _ => "BEQ"
  | .j _ => "J"
  | .jal _ => "JAL"
  | .jr _ => "JR"

/-- The bits that select an instruction's row (R70): opcode, and funct for R-format. -/
def maskOf : Instr → Word
  | .add _ _ _ => 0xFC00003F
  | .sub _ _ _ => 0xFC00003F
  | .and _ _ _ => 0xFC00003F
  | .or _ _ _ => 0xFC00003F
  | .slt _ _ _ => 0xFC00003F
  | .nor _ _ _ => 0xFC00003F
  | .lw _ _ _ => 0xFC000000
  | .sw _ _ _ => 0xFC000000
  | .beq _ _ _ => 0xFC000000
  | .j _ => 0xFC000000
  | .jal _ => 0xFC000000
  | .jr _ => 0xFC00003F

/-- The value of those bits (R70): a word `w` is the instruction when `w & mask = match`. -/
def matchOf : Instr → Word
  | .add _ _ _ => 0x00000020
  | .sub _ _ _ => 0x00000022
  | .and _ _ _ => 0x00000024
  | .or _ _ _ => 0x00000025
  | .slt _ _ _ => 0x0000002A
  | .nor _ _ _ => 0x00000027
  | .lw _ _ _ => 0x8C000000
  | .sw _ _ _ => 0xAC000000
  | .beq _ _ _ => 0x10000000
  | .j _ => 0x08000000
  | .jal _ => 0x0C000000
  | .jr _ => 0x00000008

/-- The bits of an instruction's word that the hardware reads (R71): all but `shamt` for the R-type ALU
instructions, all but `rt`, `rd` and `shamt` for JR, every bit for the rest. -/
def usedBitsOf : Instr → Word
  | .add _ _ _ => 0xFFFFF83F
  | .sub _ _ _ => 0xFFFFF83F
  | .and _ _ _ => 0xFFFFF83F
  | .or _ _ _ => 0xFFFFF83F
  | .slt _ _ _ => 0xFFFFF83F
  | .nor _ _ _ => 0xFFFFF83F
  | .lw _ _ _ => 0xFFFFFFFF
  | .sw _ _ _ => 0xFFFFFFFF
  | .beq _ _ _ => 0xFFFFFFFF
  | .j _ => 0xFFFFFFFF
  | .jal _ => 0xFFFFFFFF
  | .jr _ => 0xFFE0003F

/-! ### The host's view of the decoder -/

/-- The word whose low `nbits` bits are `w`'s and whose other bits are 0. Every instruction is one 32-bit word, its
bit 0 the table's bit 0 (R60, R62); there is no byte order to apply (R47, R50). -/
def tableWord (nbits w : Nat) : Word := BitVec.ofNat 32 (w % 2 ^ nbits)

/-- The instruction the decoder reads from a row's bits, `none` where it rejects them. -/
def decodeTableWord (nbits w : Nat) : Option Instr :=
  (decode (tableWord nbits w)).toOption

end Sys2Proof
end

