-- ==== Sys2Proof/Machine/State.lean ====
section
/-! DEFINITION. The state of the hardware as plain data (spec/10_state.md R10 to R33), the aborts (spec/60_exceptions.md
R170) and the state after reset (R31, R32, R190). -/

namespace Sys2Proof.Machine

/-- The data memory M[0..31] as a list of (word index, word) pairs. Its unit is the word: "A model must represent the
data memory as 32 words, not as 128 bytes, and needs no byte order" (spec/20_memory.md R47). Its canonical form is
`Memory.wf` (Machine/Ops.lean). DESIGN CHOICE (the list; log 3), safe. -/
abbrev Memory := List (Nat × Word)

/-- What a touched record holds when its flag is true: the 5-bit index written and the value written (R24, R25). -/
structure Touched where
  index : Index
  value : Word
  deriving DecidableEq, Repr

/-- The aborts (R170), each with the information the spec records for it. An abort "commits nothing" and ends the run
(R177, R178). DESIGN CHOICE (the spec's own decisions D7 and D13: precise, by name, no number; log 4), safe. -/
inductive Fault where
  /-- Raised by a step whose fetched item is not 32 characters of '0' and '1' (R175). Safe: the spec's own abort. -/
  | malformedInstruction (pc : Word)
  /-- Raised by a step whose fetched word has none of the six opcodes (R171). Safe: the spec's own abort. -/
  | unsupportedOpcode (pc : Word) (opcode : Opcode)
  /-- Raised by a step whose fetched word has opcode 0 and none of the seven functs (R172). Safe: the spec's own
  abort. -/
  | unsupportedFunction (pc : Word) (opcode : Opcode) (funct : Funct)
  /-- OutOfRangeAddress raised by LW and SW whose effective address is outside 0 to 127 (R173). Safe: the spec's own
  abort. -/
  | outOfRangeAddress (pc : Word) (opcode : Opcode) (ea : Word)
  /-- OutOfRangeAddress raised by the pre-load hook for a register or word index outside 0 to 31, before the run
  starts (R155, R174); no step raises it. Safe: the spec's own abort. -/
  | outOfRangeIndex (index : Nat)
  deriving DecidableEq, Repr

/-- The four abort kinds the spec names (R170); OutOfRangeAddress has the two sources above. -/
inductive AbortKind where
  | malformedInstruction
  | unsupportedOpcode
  | unsupportedFunction
  | outOfRangeAddress
  deriving DecidableEq, Repr

/-- Why the model itself gives no meaning. No step of this model refuses: every instruction has its meaning. -/
inductive Refusal where
  /-- Would be answered by an arm of exec that has no meaning yet; no arm is left so. Safe: it proves nothing. -/
  | notModelled (mnemonic : String)
  deriving DecidableEq, Repr

/-- The whole state of the hardware, and the program it runs. -/
structure State where
  /-- The RegisterFile x[0..31]; register 0 is an ordinary register (R10, R12). -/
  regs : Vector Word Config.numRegs
  /-- The DataMemory M[0..31] (R20). -/
  mem : Memory
  /-- The byte address of the instruction being executed (R16). -/
  pc : Word
  /-- The total elapsed cycles (R22), an unbounded count. DESIGN CHOICE (the spec's own decision D8; log 13), safe. -/
  cycles : Nat
  /-- The touched-register record of the latest cycle (R23, R24); `none` is the flag false, whose index and value
  "carry no information" (R156). DEDUCED (log 15), safe. -/
  touchedReg : Option Touched
  /-- The touched-memory record of the latest cycle (R23, R25); `none` is the flag false. -/
  touchedMem : Option Touched
  /-- PROGRAM[0..N-1], the instruction memory (R40, R151): a parameter of the run, which no step changes (R153),
  carried here because a step takes a state alone. DESIGN CHOICE (log 1), safe. -/
  program : List Item
  deriving DecidableEq, Repr

/-- The machine right after reset: "pc = 0 and all stores zero-valued" (R31), both touched flags false (R32; DESIGN
CHOICE, the spec's own decision D12; log 15), and no program supplied yet (log 1). Memory lists nothing, and an unlisted word
reads 0 (Machine/Ops.lean, `Memory.unlisted`). -/
def State.reset : State where
  regs := Vector.replicate Config.numRegs 0
  mem := []
  pc := 0
  cycles := 0
  touchedReg := none
  touchedMem := none
  program := []

end Sys2Proof.Machine
end

