-- ==== Sys2Proof/Machine/Operands.lean ====
section
/-! DEFINITION. Immediates, targets and addresses: what the datapath makes of the fields of a word
(spec/30_encoding.md R66 to R68, spec/42_load_store.md R130, spec/20_memory.md R43, R48). -/

namespace Sys2Proof.Machine

/-- Register 31, the destination of JAL (R90, R137). -/
def linkReg : Index := 31

/-- `sext_32(imm)`: the low 16 bits are `imm`, the high 16 all equal its bit 15 (R66). -/
def sext32 (imm : Imm) : Word := imm.signExtend 32

/-- `next_pc = pc + 4`, modulo 2^32 (R26; DESIGN CHOICE, the spec's own decision D5; log 11), unsafe. -/
def nextPc (pc : Word) : Word := pc + 4

/-- The branch offset: the sign-extended immediate shifted left by 2 (R67). -/
def branchOffset (imm : Imm) : Word := sext32 imm <<< 2

/-- `branch_target = next_pc + (sext_32(imm) << 2)`, modulo 2^32 (R67). -/
def branchTarget (pc : Word) (imm : Imm) : Word := nextPc pc + branchOffset imm

/-- `jump_target = { pc[31:28], address, 0b00 }`, the high bits from the pc of the jump itself (R68). -/
def jumpTarget (pc : Word) (address : JumpField) : Word :=
  pc.extractLsb' 28 4 ++ address ++ (0 : BitVec 2)

/-- The one addressing mode of LW and SW: `ea = (x[rs] + sext_32(imm)) mod 2^32` (R130). -/
def effectiveAddress (base : Word) (imm : Imm) : Word := base + sext32 imm

/-- A data address is in range exactly when `0 <= signed(addr) <= 127` (R45; DESIGN CHOICE, the spec's own decision
D4; log 10), safe. -/
def addressInRange (addr : Word) : Bool := decide (0 ≤ addr.toInt ∧ addr.toInt ≤ 127)

/-- The data-memory word an address reaches, `addr[6:2]`: the low two bits select nothing (R43, R46; DESIGN CHOICE,
the spec's own decision D3; log 9), unsafe. -/
def wordIndex (addr : Word) : Index := addr.extractLsb' 2 5

/-- The instruction-memory item a pc reaches, `pc[31:2]` read as unsigned: the low two bits are ignored (R48, R49;
DESIGN CHOICE, the spec's own decision D6; log 12), unsafe. -/
def fetchIndex (pc : Word) : Nat := (pc.extractLsb' 2 30).toNat

end Sys2Proof.Machine
end

