-- ==== Sys2Proof/Machine/Flags.lean ====
section
/-! DEFINITION. The one flag of the hardware, the ALU zero flag: a signal of one cycle, kept nowhere
(spec/10_state.md R19, spec/40_datapath_control.md R93). There is no carry, overflow or sign flag (R127). -/

namespace Sys2Proof.Machine

/-- `alu_zero = (result = 0)`, all 32 bits (R93). -/
def aluZero (result : Word) : Bool := result == 0

end Sys2Proof.Machine
end

