-- ==== Sys2Proof/Machine/Ops.lean ====
section
/-! DEFINITION. The named operations over the state: the data memory (spec/20_memory.md R42 to R46), the registers
(spec/10_state.md R13, R14, R24), the fetch (R48), the start and the end of a cycle (R23, R83, R99), and raising an
abort (spec/60_exceptions.md R177). -/

namespace Sys2Proof.Machine

/-- The outcome of a step of this machine: the next state, an abort, or a refusal. -/
abbrev Outcome := Host.Outcome State Fault Refusal

/-! ### The data memory -/

/-- What an unlisted word reads as: "a register or memory word that nothing has written reads as 0" (R31, R42). -/
def Memory.unlisted : Word := 0

/-- The word M[k]. -/
def Memory.read : Memory → Nat → Word
  | [], _ => Memory.unlisted
  | (a, v) :: m, k => if a = k then v else Memory.read m k

/-- Word `k` taken off the list. -/
def Memory.erase (m : Memory) (k : Nat) : Memory := m.filter fun c => c.1 != k

/-- Word `k` put before the first listed word of a higher index. -/
def Memory.insert : Memory → Nat → Word → Memory
  | [], k, v => [(k, v)]
  | (a, w) :: m, k, v => if k < a then (k, v) :: (a, w) :: m else (a, w) :: Memory.insert m k v

/-- `M[k] <- v`. Writing what an unlisted word reads as takes the word off the list, so that equal memories are equal
lists. -/
def Memory.write (m : Memory) (k : Nat) (v : Word) : Memory :=
  if v = Memory.unlisted then m.erase k else (m.erase k).insert k v

/-- The canonical form: indices strictly rising, each one of the 32 words (R20), no word listed at the value an
unlisted word reads as. -/
abbrev Memory.wf (m : Memory) : Prop :=
  m.Pairwise (fun c d => c.1 < d.1) ∧ ∀ c ∈ m, c.1 < Config.dmemWords ∧ c.2 ≠ Memory.unlisted

/-- M[k] of a state, by its 5-bit word index. -/
def State.word (s : State) (k : Index) : Word := s.mem.read k.toNat

/-- `MemRead(addr, 4)` (R43): `none` is the range check's OutOfRangeAddress. It marks nothing as touched. -/
def State.memRead (s : State) (addr : Word) : Option Word :=
  if addressInRange addr then some (s.word (wordIndex addr)) else none

/-- `M[k] <- v` with the touched-memory record set to `(true, k, v)` (R25, R44). -/
def State.writeWord (s : State) (k : Index) (v : Word) : State :=
  { s with mem := s.mem.write k.toNat v, touchedMem := some ⟨k, v⟩ }

/-- `MemWrite(addr, 4, v)` (R44): `none` is the range check's OutOfRangeAddress. -/
def State.memWrite (s : State) (addr : Word) (v : Word) : Option State :=
  if addressInRange addr then some (s.writeWord (wordIndex addr) v) else none

/-! ### The registers -/

/-- `x[i]`: register 0 is read like any other (R10, R12). -/
def State.reg (s : State) (i : Index) : Word := s.regs[i.toNat]'(Config.index_lt_numRegs i)

/-- `x[i] <- v` with the touched-register record set to `(true, i, v)`, whatever `i` is and whatever the register held
(R14, R24). Register 0 is written like any other (R12; DESIGN CHOICE, the spec's own decision D1; log 6), unsafe. -/
def State.writeReg (s : State) (i : Index) (v : Word) : State :=
  { s with regs := s.regs.set i.toNat v (Config.index_lt_numRegs i), touchedReg := some ⟨i, v⟩ }

/-! ### The cycle -/

/-- The start of a cycle: both touched flags become false (R23, R83). -/
def State.beginCycle (s : State) : State := { s with touchedReg := none, touchedMem := none }

/-- The end of a cycle that executed an instruction: the new pc, and `cycles + 1` whichever path the pc takes (R98,
R99). -/
def State.endCycle (s : State) (pc : Word) : State := { s with pc := pc, cycles := s.cycles + 1 }

/-- Taking an abort (R177): the step answers the abort and its diagnostic and commits nothing; there is no vector, no
handler, no saved pc, no mode change and no return (R178). DESIGN CHOICE (the spec's own decision D7; log 4), safe. -/
def raiseAbort (f : Fault) : Outcome := .fault f

/-- The abort a rejected item raises, with the pc it was fetched from (R170, R171, R172, R175). -/
def faultOfReject (pc : Word) : Reject → Fault
  | .malformedInstruction => .malformedInstruction pc
  | .unsupportedOpcode opcode => .unsupportedOpcode pc opcode
  | .unsupportedFunction opcode funct => .unsupportedFunction pc opcode funct

/-- The kind of an abort, as the spec names it (R170). -/
def kindOfFault : Fault → AbortKind
  | .malformedInstruction _ => .malformedInstruction
  | .unsupportedOpcode _ _ => .unsupportedOpcode
  | .unsupportedFunction _ _ _ => .unsupportedFunction
  | .outOfRangeAddress _ _ _ => .outOfRangeAddress
  | .outOfRangeIndex _ => .outOfRangeAddress

/-! ### The instruction memory -/

/-- `Fetch(pc)` (R48): the item at index `pc[31:2]`, or `none` for EndOfProgram. There is no fetch abort for the pc
itself (R49). -/
def State.fetch (s : State) : Option Item := s.program[fetchIndex s.pc]?

/-- The program supplied by the instruction source, before the first cycle (R151, R192). -/
def State.load (s : State) (program : List Item) : State := { s with program := program }

/-- An instruction memory with `x` at index `n`; where it is shorter, words of 0 stand before it, which are never
reached by the fetch at `n` (log 1). -/
def placeItem : List Item → Nat → Item → List Item
  | [], 0, x => [x]
  | _ :: p, 0, x => x :: p
  | [], n + 1, x => .word 0 :: placeItem [] n x
  | y :: p, n + 1, x => y :: placeItem p n x

/-- The state with item `x` where its next fetch reads. -/
def State.placeAtPc (s : State) (x : Item) : State :=
  { s with program := placeItem s.program (fetchIndex s.pc) x }

end Sys2Proof.Machine
end

