-- ==== Sys2Proof/Machine/Alu.lean ====
section
/-! DEFINITION. The ALU (spec/40_datapath_control.md R92) and the six R-type arithmetic and logic instructions
(spec/41_alu_rtype.md R120 to R127). -/

namespace Sys2Proof.Machine

/-- The six ALU operations, a tag with no bit encoding (R88; decision D22). -/
inductive AluOp where
  | add
  | sub
  | and
  | or
  | slt
  | nor
  deriving DecidableEq, Repr

/-- The ALU result of two operands (R92). The meanings of the six operations are the spec's general knowledge
(PRESUMED, the spec's G2; log 8), unsafe; that ADD and SUB wrap modulo 2^32 and SLT compares exactly are its own
decisions D2 and D17 (DESIGN CHOICE; logs 7 and 8), unsafe. -/
def alu (op : AluOp) (a b : Word) : Word :=
  match op with
  | .add => a + b
  | .sub => a - b
  | .and => a &&& b
  | .or => a ||| b
  | .slt => if a.toInt < b.toInt then 1 else 0
  | .nor => ~~~(a ||| b)

/-- What the six R-type ALU instructions have in common (R120): both sources are read before the destination is
written, the destination is marked touched, the pc goes on by 4, the cycle counts, nothing aborts. -/
def aluRType (op : AluOp) (rd rs rt : Index) (s : State) : Outcome :=
  .next ((s.beginCycle.writeReg rd (alu op (s.reg rs) (s.reg rt))).endCycle (nextPc s.pc))

/-- ADD (R121) -/
def execAdd (rd rs rt : Index) (s : State) : Outcome := aluRType .add rd rs rt s
/-- SUB (R122) -/
def execSub (rd rs rt : Index) (s : State) : Outcome := aluRType .sub rd rs rt s
/-- AND (R123) -/
def execAnd (rd rs rt : Index) (s : State) : Outcome := aluRType .and rd rs rt s
/-- OR (R124) -/
def execOr (rd rs rt : Index) (s : State) : Outcome := aluRType .or rd rs rt s
/-- SLT (R125) -/
def execSlt (rd rs rt : Index) (s : State) : Outcome := aluRType .slt rd rs rt s
/-- NOR (R126) -/
def execNor (rd rs rt : Index) (s : State) : Outcome := aluRType .nor rd rs rt s

end Sys2Proof.Machine
end

