-- ==== Sys2Proof/Machine/Control.lean ====
section
/-! DEFINITION. BEQ, J, JAL and JR (spec/43_control_transfer.md R135 to R140). There is no delay slot and no check of a
target (R139, R140). -/

namespace Sys2Proof.Machine

/-- BEQ (R135): SUB and its zero flag decide; taken or not, only the pc and the cycle count change and both touched
flags are false. -/
def execBeq (rs rt : Index) (imm : Imm) (s : State) : Outcome :=
  let taken := aluZero (alu .sub (s.reg rs) (s.reg rt))
  .next (s.beginCycle.endCycle (if taken then branchTarget s.pc imm else nextPc s.pc))

/-- J (R136): the target takes its high four bits from the pc of the J itself; no register is read or written. -/
def execJ (address : JumpField) (s : State) : Outcome :=
  .next (s.beginCycle.endCycle (jumpTarget s.pc address))

/-- JAL (R137): register 31 takes `pc + 4`, and the target is formed from the same old pc. -/
def execJal (address : JumpField) (s : State) : Outcome :=
  .next ((s.beginCycle.writeReg linkReg (nextPc s.pc)).endCycle (jumpTarget s.pc address))

/-- JR (R138, R94): all 32 bits of the register become the pc; nothing else but the cycle count changes, and both
touched flags are false. -/
def execJr (rs : Index) (s : State) : Outcome :=
  .next (s.beginCycle.endCycle (s.reg rs))

end Sys2Proof.Machine
end

