-- ==== Sys2Proof/Machine/LoadStore.lean ====
section
/-! DEFINITION. LW and SW (spec/42_load_store.md R130 to R132). -/

namespace Sys2Proof.Machine

/-- LW (R131): the whole word at the effective address goes to `rt`; the range check comes before the writeback, so an
abort changes nothing; memory is never marked touched. The address uses the old value of `rs` when `rt = rs`. -/
def execLw (rt : Index) (imm : Imm) (rs : Index) (s : State) : Outcome :=
  let ea := effectiveAddress (s.reg rs) imm
  match s.memRead ea with
  | none => raiseAbort (.outOfRangeAddress s.pc opLw ea)
  | some v => .next ((s.beginCycle.writeReg rt v).endCycle (nextPc s.pc))

/-- SW (R132): the whole of `rt` goes to the word at the effective address, which is marked touched; the range check
comes before the write, so an abort changes nothing; no register is written. -/
def execSw (rt : Index) (imm : Imm) (rs : Index) (s : State) : Outcome :=
  let ea := effectiveAddress (s.reg rs) imm
  match s.beginCycle.memWrite ea (s.reg rt) with
  | none => raiseAbort (.outOfRangeAddress s.pc opSw ea)
  | some t => .next (t.endCycle (nextPc s.pc))

end Sys2Proof.Machine
end

