-- ==== Sys2Proof/Machine/Cycle.lean ====
section
/-! DEFINITION. One cycle: fetch, decode, execute (spec/40_datapath_control.md R80 to R84). -/

namespace Sys2Proof.Machine

/-- What a fetched item does: its instruction's meaning, or the abort the decoder raises (R80, R85, R171, R172,
R175). -/
def runItem (x : Item) (s : State) : Outcome :=
  match decodeItem x with
  | .ok i => exec i s
  | .error r => raiseAbort (faultOfReject s.pc r)

/-- The cycle-step operation (R80). Its outcome `Consumed` is a next state; an abort is a fault; and EndOfProgram, "not
an error" (R176), is the SAME state as next state, since it "changes nothing" and every later step does the same
(R81). DESIGN CHOICE (the host's outcomes have no fourth; log 2), safe: `State.atEnd` tells it apart. -/
def cycleStep (s : State) : Outcome :=
  match s.fetch with
  | none => .next s
  | some x => runItem x s

/-- "a boolean/optional indicating 'instruction consumed' vs 'no more instructions'" (R80, R158): the step at this state
answers EndOfProgram. -/
def State.atEnd (s : State) : Bool := s.fetch.isNone

end Sys2Proof.Machine
end

