-- ==== Sys2Proof/Machine/Step.lean ====
section
/-! DEFINITION. The step of the machine, and a state that fetches a given instruction next. -/

namespace Sys2Proof.Machine

/-- One invocation of the cycle-step operation (R80; Machine/Cycle.lean). -/
def step : State → Host.Outcome State Fault Refusal := cycleStep

/-- `s` with the instruction whose bits are `w` stored where the next fetch reads, standing for the instruction
source's supply of that word (R151; log 1). -/
def State.withFetchWord (s : State) (nbits w : Nat) : State := s.placeAtPc (.word (tableWord nbits w))

end Sys2Proof.Machine
end

