-- ==== Sys2Proof/Machine/Datapath.lean ====
section
/-! DEFINITION. The datapath block by block (spec/40_datapath_control.md R84 to R98) and the step of R83 written over
the blocks. The per-instruction meanings of exec are "this machinery specialised to one opcode"; that the two steps
agree is an obligation. -/

namespace Sys2Proof.Machine

/-! ### ControlUnit (R86, R87) -/

/-- The "ALU-instruction-type" tag; `noType` is the tag of a dash in the table (R86, R87; decisions D10, D22). -/
inductive InstType where
  | rType
  | iAdd
  | iSub
  | noType
  deriving DecidableEq, Repr

/-- The ControlSignals record, a function of the opcode alone (R27, R86). -/
structure ControlSignals where
  regdest : Bool
  alusrc : Bool
  memtoreg : Bool
  regwrite : Bool
  memread : Bool
  memwrite : Bool
  branch : Bool
  jump : Bool
  jal : Bool
  insttype : InstType
  deriving DecidableEq, Repr

/-- The control table with every dash at 0 (R86, R87; DESIGN CHOICE, the spec's own decision D10; log 16), safe: no
rule reads those signals. `none` is UnsupportedOpcode. -/
def controlUnit (opcode : Opcode) : Option ControlSignals :=
  if opcode = opRType then some ⟨true, false, false, true, false, false, false, false, false, .rType⟩
  else if opcode = opLw then some ⟨false, true, true, true, true, false, false, false, false, .iAdd⟩
  else if opcode = opSw then some ⟨false, true, false, false, false, true, false, false, false, .iAdd⟩
  else if opcode = opBeq then some ⟨false, false, false, false, false, false, true, false, false, .iSub⟩
  else if opcode = opJ then some ⟨false, false, false, false, false, false, false, true, false, .noType⟩
  else if opcode = opJal then some ⟨false, false, false, true, false, false, false, true, true, .noType⟩
  else none

/-! ### ALUControl (R88, R89) -/

/-- The ALUControl's output: an ALU operation with `jr` 0, or `jr` 1, where the operation is "irrelevant" (R88). -/
inductive AluSelect where
  | operation (op : AluOp)
  | jumpRegister
  deriving DecidableEq, Repr

/-- The ALUControl table (R88). `none` is UnsupportedFunction; it is also the answer for `noType`, for which the
ALUControl "is not consulted" (R89). -/
def aluControl (insttype : InstType) (funct : Funct) : Option AluSelect :=
  match insttype with
  | .iAdd => some (.operation .add)
  | .iSub => some (.operation .sub)
  | .noType => none
  | .rType =>
    if funct = fnAdd then some (.operation .add)
    else if funct = fnSub then some (.operation .sub)
    else if funct = fnAnd then some (.operation .and)
    else if funct = fnOr then some (.operation .or)
    else if funct = fnSlt then some (.operation .slt)
    else if funct = fnNor then some (.operation .nor)
    else if funct = fnJr then some .jumpRegister
    else none

/-! ### The stages -/

/-- The write-back target: 31 for JAL, else `rd` or `rt` by `regdest` (R90). -/
def writeTarget (c : ControlSignals) (w : Word) : Index :=
  if c.jal then linkReg else if c.regdest then rdOf w else rtOf w

/-- ALU operand 2: the sign-extended immediate or `x[rt]`, by `alusrc` (R91). -/
def operand2 (c : ControlSignals) (w : Word) (s : State) : Word :=
  if c.alusrc then sext32 (immOf w) else s.reg (rtOf w)

/-- The Executor's result (R91, R92). -/
def executor (c : ControlSignals) (op : AluOp) (w : Word) (s : State) : Word :=
  alu op (s.reg (rsOf w)) (operand2 c w s)

/-- The MemoryStage (R96): the state after a store, and the memory-sourced value, which is the ALU result passed
through where nothing is loaded. `none` is OutOfRangeAddress. `s` is the state of this cycle so far, `result` the
address candidate, `data` the store data. -/
def memoryStage (c : ControlSignals) (result data : Word) (s : State) : Option (State × Word) :=
  if c.memread then (s.memRead result).map fun v => (s, v)
  else if c.memwrite then (s.memWrite result data).map fun t => (t, result)
  else some (s, result)

/-- The WritebackStage (R97): nothing without `regwrite`; else the memory-sourced value or the ALU result by
`memtoreg`. -/
def writebackStage (c : ControlSignals) (target : Index) (result memval : Word) (s : State) : State :=
  if c.regwrite then s.writeReg target (if c.memtoreg then memval else result) else s

/-- The jump path of J and JAL, which leaves the block order before the ALUControl (R84, R89, R101; DESIGN CHOICE, the
spec's own decision D14; log 17), safe. -/
def jumpPath (c : ControlSignals) (w : Word) (s : State) : Outcome :=
  let t := if c.jal then s.beginCycle.writeReg (writeTarget c w) (nextPc s.pc) else s.beginCycle
  .next (t.endCycle (jumpTarget s.pc (addressOf w)))

/-- The Executor, the branch unit, the MemoryStage, the WritebackStage and the default pc path (R91 to R98). -/
def executePath (c : ControlSignals) (op : AluOp) (w : Word) (s : State) : Outcome :=
  let result := executor c op w s
  if c.branch && aluZero result then
    .next (s.beginCycle.endCycle (branchTarget s.pc (immOf w)))
  else
    match memoryStage c result (s.reg (rtOf w)) s.beginCycle with
    | none => raiseAbort (.outOfRangeAddress s.pc (opcodeOf w) result)
    | some (t, memval) =>
      .next ((writebackStage c (writeTarget c w) result memval t).endCycle (nextPc s.pc))

/-- R83 on a fetched word. -/
def datapathWord (w : Word) (s : State) : Outcome :=
  match controlUnit (opcodeOf w) with
  | none => raiseAbort (.unsupportedOpcode s.pc (opcodeOf w))
  | some c =>
    if c.jump then jumpPath c w s
    else
      match aluControl c.insttype (functOf w) with
      | none => raiseAbort (.unsupportedFunction s.pc (opcodeOf w) (functOf w))
      | some .jumpRegister => .next (s.beginCycle.endCycle (s.reg (rsOf w)))
      | some (.operation op) => executePath c op w s

/-- "The step, in full" (R83), over the blocks. -/
def datapathStep (s : State) : Outcome :=
  match s.fetch with
  | none => .next s
  | some .malformed => raiseAbort (.malformedInstruction s.pc)
  | some (.word w) => datapathWord w s

end Sys2Proof.Machine
end

