-- ==== Sys2Proof/Machine/Interface.lean ====
section
/-! DEFINITION. What crosses the boundary of the CORE (spec/50_interfaces.md): the instruction source, the pre-load
hook, the observation of a cycle and the driving loop. -/

namespace Sys2Proof.Machine

/-! ### Instruction source (R151) -/

/-- The instruction memory from the texts of the instruction source, item `i` at byte address `4*i` (R151). -/
def programOfTexts (texts : List (List Char)) : List Item := texts.map itemOfText

/-! ### Pre-load (R154, R155) -/

/-- One assignment of a pre-load: to a register index, or to a memory word index, "not a byte address" (R154, R155). -/
inductive Assignment where
  | reg (index : Nat) (value : Word)
  | word (index : Nat) (value : Word)
  deriving DecidableEq, Repr

/-- The index an assignment names. -/
def indexOfAssignment : Assignment → Nat
  | .reg i _ => i
  | .word k _ => k

/-- The pre-load hook's check: "indices 0 to 31" (R155). -/
def assignmentInRange (a : Assignment) : Bool := decide (indexOfAssignment a < 32)

/-- One assignment carried out: a pre-load "does not change `pc`, `cycles` or the touched records" (R154). -/
def applyAssignment (s : State) : Assignment → State
  | .reg i v => { s with regs := s.regs.setIfInBounds i v }
  | .word k v => { s with mem := s.mem.write k v }

/-- The pre-load hook (R154, R155): the assignments in order, a later one overriding; an index out of range is refused
with OutOfRangeAddress and the run does not start. DESIGN CHOICE (the spec's own decision D19; log 20), safe. -/
def preload : List Assignment → State → Except Fault State
  | [], s => .ok s
  | a :: rest, s =>
    if assignmentInRange a then preload rest (applyAssignment s a) else .error (.outOfRangeIndex (indexOfAssignment a))

/-- The state the first cycle sees: reset, then the pre-load, then the program made available (R33, R192). -/
def boot (assignments : List Assignment) (program : List Item) : Except Fault State :=
  (preload assignments State.reset).map fun s => s.load program

/-! ### Observation (R156) -/

/-- "After each cycle the core exposes" this (R156). -/
structure Observation where
  cycles : Nat
  pc : Word
  touchedReg : Option Touched
  touchedMem : Option Touched
  deriving DecidableEq, Repr

/-- The observation record of a state that a consumed step left (R156). -/
def observe (s : State) : Observation where
  cycles := s.cycles
  pc := s.pc
  touchedReg := s.touchedReg
  touchedMem := s.touchedMem

/-- The registers after a cycle, from the registers before it and its record (R157). -/
def replayRegs (regs : Vector Word Config.numRegs) : Option Touched → Vector Word Config.numRegs
  | none => regs
  | some r => regs.set r.index.toNat r.value (Config.index_lt_numRegs r.index)

/-- The data memory after a cycle, from the memory before it and its record (R157). -/
def replayMem (m : Memory) : Option Touched → Memory
  | none => m
  | some r => m.write r.index.toNat r.value

/-! ### The driving loop (R158, R159) -/

/-- How a run ended. `outOfFuel` is the loop's bound, not the hardware's, which has none (R198; log 22); `refused` is
never reached, since no step refuses. -/
inductive RunEnd where
  | endOfProgram
  | aborted (f : Fault)
  | refused (r : Refusal)
  | outOfFuel
  deriving DecidableEq, Repr

/-- A run: the observations after its consumed steps, the state it ended in, and how. -/
structure Run where
  trace : List Observation
  final : State
  ended : RunEnd
  deriving DecidableEq, Repr

/-- The driving loop with fuel (R158). EndOfProgram and an abort give no observation (R156; decision D9; log 14), and an
abort's final state is "that before the offending instruction" (R159). -/
def drive : Nat → State → Run
  | 0, s => ⟨[], s, .outOfFuel⟩
  | n + 1, s =>
    if s.atEnd then ⟨[], s, .endOfProgram⟩
    else
      match step s with
      | .next t => ⟨observe t :: (drive n t).trace, (drive n t).final, (drive n t).ended⟩
      | .fault f => ⟨[], s, .aborted f⟩
      | .refused r => ⟨[], s, .refused r⟩

/-! ### Register names (R11) -/

/-- The "fixed symbolic name" of each register (R11). Only `$ra` is the source's; the rest are the spec's general
knowledge (PRESUMED, G1; log 25), safe: "The names have no effect on behaviour". -/
def regName (i : Index) : String :=
  (["$zero", "$at", "$v0", "$v1", "$a0", "$a1", "$a2", "$a3",
    "$t0", "$t1", "$t2", "$t3", "$t4", "$t5", "$t6", "$t7",
    "$s0", "$s1", "$s2", "$s3", "$s4", "$s5", "$s6", "$s7",
    "$t8", "$t9", "$k0", "$k1", "$gp", "$sp", "$fp", "$ra"][i.toNat]?).getD ""

/-! ### The notation of the listings (R76) -/

/-- The six R-type ALU instructions and their like: `op rd, rs, rt`. -/
def listing3 (op : String) (a b c : Index) : String :=
  op ++ " " ++ regName a ++ ", " ++ regName b ++ ", " ++ regName c

/-- LW and SW: `op rt, imm(rs)`, the displacement a signed decimal. -/
def listingMem (op : String) (rt : Index) (imm : Imm) (rs : Index) : String :=
  op ++ " " ++ regName rt ++ ", " ++ toString imm.toInt ++ "(" ++ regName rs ++ ")"

/-- An instruction in the spec's own notation, branch and jump operands "the raw field values" (R76). DESIGN CHOICE
(the spec's own decision D23, from its general knowledge G4; log 26), safe: "It is not an interface of the hardware". -/
def listing : Instr → String
  | .add rd rs rt => listing3 "add" rd rs rt
  | .sub rd rs rt => listing3 "sub" rd rs rt
  | .and rd rs rt => listing3 "and" rd rs rt
  | .or rd rs rt => listing3 "or" rd rs rt
  | .slt rd rs rt => listing3 "slt" rd rs rt
  | .nor rd rs rt => listing3 "nor" rd rs rt
  | .lw rt imm rs => listingMem "lw" rt imm rs
  | .sw rt imm rs => listingMem "sw" rt imm rs
  | .beq rs rt imm => "beq " ++ regName rs ++ ", " ++ regName rt ++ ", " ++ toString imm.toInt
  | .j address => "j " ++ toString address.toNat
  | .jal address => "jal " ++ toString address.toNat
  | .jr rs => "jr " ++ regName rs

end Sys2Proof.Machine
end

