-- ==== Sys2Proof/Safety.lean ====
section
/-! DEFINITION. The terms the claims use: the invariant of the machine, what an instruction writes and reads, the
effect of a step that writes one register, one memory word or neither, and the words the decoder accepts. -/

namespace Sys2Proof.Machine

/-- A touched-register record reports the register's value now (spec/50_interfaces.md R156). -/
abbrev State.touchedRegAgrees (s : State) : Prop :=
  s.touchedReg.all (fun r => s.reg r.index == r.value) = true

/-- A touched-memory record reports the word's value now (R156). -/
abbrev State.touchedMemAgrees (s : State) : Prop :=
  s.touchedMem.all (fun r => s.word r.index == r.value) = true

/-- The invariant of the machine: memory in canonical form, a program within the bound (R153, decision D16), records
that report what stands in the state (R156), and at most one of them (R100). -/
structure State.Inv (s : State) : Prop where
  memory : s.mem.wf
  program : programWellFormed s.program = true
  regRecord : s.touchedRegAgrees
  memRecord : s.touchedMemAgrees
  oneRecord : s.touchedReg = none ∨ s.touchedMem = none

/-- The register an instruction writes, if any (R14). -/
def destinationOf : Instr → Option Index
  | .add rd _ _ => some rd
  | .sub rd _ _ => some rd
  | .and rd _ _ => some rd
  | .or rd _ _ => some rd
  | .slt rd _ _ => some rd
  | .nor rd _ _ => some rd
  | .lw rt _ _ => some rt
  | .sw _ _ _ => none
  | .beq _ _ _ => none
  | .j _ => none
  | .jal _ => some linkReg
  | .jr _ => none

/-- The registers an instruction reads (R13). -/
def sourcesOf : Instr → List Index
  | .add _ rs rt => [rs, rt]
  | .sub _ rs rt => [rs, rt]
  | .and _ rs rt => [rs, rt]
  | .or _ rs rt => [rs, rt]
  | .slt _ rs rt => [rs, rt]
  | .nor _ rs rt => [rs, rt]
  | .lw _ _ rs => [rs]
  | .sw rt _ rs => [rs, rt]
  | .beq rs rt _ => [rs, rt]
  | .j _ => []
  | .jal _ => []
  | .jr rs => [rs]

/-- `t` is `s` after an executed instruction that writes register `rd` with `v`, and no other register, no memory word
and not the program; it goes on at `pc`, counts one cycle, and marks exactly `rd` touched. -/
structure WritesReg (s t : State) (rd : Index) (v pc : Word) : Prop where
  result : t.reg rd = v
  others : ∀ r, r ≠ rd → t.reg r = s.reg r
  memory : ∀ k, t.mem.read k = s.mem.read k
  pc : t.pc = pc
  cycles : t.cycles = s.cycles + 1
  touchedReg : t.touchedReg = some ⟨rd, v⟩
  touchedMem : t.touchedMem = none
  program : t.program = s.program

/-- `t` is `s` after an executed instruction that writes memory word `k` with `v`, and no other word, no register and
not the program; it goes on at `pc`, counts one cycle, and marks exactly word `k` touched. -/
structure WritesWord (s t : State) (k : Index) (v pc : Word) : Prop where
  result : t.mem.read k.toNat = v
  others : ∀ n, n ≠ k.toNat → t.mem.read n = s.mem.read n
  registers : ∀ r, t.reg r = s.reg r
  pc : t.pc = pc
  cycles : t.cycles = s.cycles + 1
  touchedReg : t.touchedReg = none
  touchedMem : t.touchedMem = some ⟨k, v⟩
  program : t.program = s.program

/-- `t` is `s` after an executed instruction that writes no register and no memory word; it goes on at `pc`, counts one
cycle, and both touched flags are false. -/
structure WritesNothing (s t : State) (pc : Word) : Prop where
  registers : ∀ r, t.reg r = s.reg r
  memory : ∀ k, t.mem.read k = s.mem.read k
  pc : t.pc = pc
  cycles : t.cycles = s.cycles + 1
  touchedReg : t.touchedReg = none
  touchedMem : t.touchedMem = none
  program : t.program = s.program

/-- The six supported opcodes (R69). -/
def supportedOpcodes : List Opcode := [0, 2, 3, 4, 35, 43]

/-- The seven supported functs of opcode 0 (R70). -/
def supportedFuncts : List Funct := [8, 32, 34, 36, 37, 39, 42]

/-- Two outcomes that agree but for the general registers (a register written is still compared, by its touched
record): both next states with the same pc, cycles, memory, records and program, or the same abort, or the same refusal. -/
def agreeButRegisters : Outcome → Outcome → Prop
  | .next t, .next u =>
    t.pc = u.pc ∧ t.cycles = u.cycles ∧ t.mem = u.mem ∧ t.touchedReg = u.touchedReg ∧
      t.touchedMem = u.touchedMem ∧ t.program = u.program
  | .fault f, .fault g => f = g
  | .refused q, .refused r => q = r
  | .next _, .fault _ => False
  | .next _, .refused _ => False
  | .fault _, .next _ => False
  | .fault _, .refused _ => False
  | .refused _, .next _ => False
  | .refused _, .fault _ => False

/-- Two outcomes that agree but for the data memory. -/
def agreeButMemory : Outcome → Outcome → Prop
  | .next t, .next u =>
    t.pc = u.pc ∧ t.cycles = u.cycles ∧ t.regs = u.regs ∧ t.touchedReg = u.touchedReg ∧
      t.touchedMem = u.touchedMem ∧ t.program = u.program
  | .fault f, .fault g => f = g
  | .refused q, .refused r => q = r
  | .next _, .fault _ => False
  | .next _, .refused _ => False
  | .fault _, .next _ => False
  | .fault _, .refused _ => False
  | .refused _, .next _ => False
  | .refused _, .fault _ => False

/-- The value a list of pre-load assignments gives register `i`: the last one that names it (R154, decision D19). -/
def assignedReg : List Assignment → Nat → Option Word
  | [], _ => none
  | .reg j v :: rest, i => (assignedReg rest i).or (if j = i then some v else none)
  | .word _ _ :: rest, i => assignedReg rest i

/-- The value a list of pre-load assignments gives memory word `k`: the last one that names it. -/
def assignedWord : List Assignment → Nat → Option Word
  | [], _ => none
  | .word j v :: rest, k => (assignedWord rest k).or (if j = k then some v else none)
  | .reg _ _ :: rest, k => assignedWord rest k

/-- A step is safe when it does not abort: it executes an instruction or finds the end of the program (R196). -/
def State.stepIsSafe (s : State) : Prop := ∃ t, step s = .next t

end Sys2Proof.Machine
end

