-- ==== Sys2Proof/Certificates/Slice0/Obligations.lean ====
section
/-! DEFINITION. The statements for the provers, from the numbered rules of spec/. Where a statement rests on a point the
spec marks as its own decision (D<n>), as derived, or as general knowledge (G<n>), its docstring says so and names the
log entry. -/

open Sys2Proof Sys2Proof.Machine

/-! ### Decoding and encoding -/

/-- Every word is its fields side by side, and `immediate` and `address` reuse the fields' bits (30_encoding.md section
2). -/
def Obligations.FieldsCutTheWord : Prop :=
  ∀ w : Word,
    w = opcodeOf w ++ rsOf w ++ rtOf w ++ rdOf w ++ shamtOf w ++ functOf w ∧
    immOf w = rdOf w ++ shamtOf w ++ functOf w ∧
    addressOf w = rsOf w ++ rtOf w ++ immOf w

/-- Decoding an encoded well-formed instruction gives it back, whatever its operands (30_encoding.md sections 2 to 4). -/
def Obligations.DecodeOfEncode : Prop :=
  ∀ i : Instr, i.wellFormed = true → decode (encode i) = .ok i

/-- A decoded word and the encoding of its instruction agree on every bit the hardware reads (30_encoding.md sections 2,
4 and 5), so the decoder drops none of them. -/
def Obligations.EncodeOfDecodeKeepsUsedBits : Prop :=
  ∀ (w : Word) (i : Instr), decode w = .ok i → encode i &&& usedBitsOf i = w &&& usedBitsOf i

/-- R71: which instruction a word is depends on the opcode alone, and for opcode 0 on opcode and funct alone; two words
that differ only in ignored bits (`shamt` of the R-type; `rt`, `rd`, `shamt` of JR) are the same instruction. -/
def Obligations.OnlyOpcodeAndFunctSelect : Prop :=
  (∀ v w : Word, opcodeOf v = opcodeOf w → (opcodeOf v = 0 → functOf v = functOf w) →
    (decode v).map mnemonicOf = (decode w).map mnemonicOf) ∧
  (∀ v w : Word, opcodeOf v = 0 → opcodeOf w = 0 → functOf v = functOf w → rsOf v = rsOf w → rtOf v = rtOf w →
    rdOf v = rdOf w → decode v = decode w) ∧
  (∀ v w : Word, opcodeOf v = 0 → opcodeOf w = 0 → functOf v = 8 → functOf w = 8 → rsOf v = rsOf w →
    decode v = decode w)

/-- A word is accepted as an instruction exactly when it has the match of that instruction's row under the row's mask
(30_encoding.md section 4; that the rows are disjoint is marked derived there). -/
def Obligations.DecodeFollowsTheOpcodeTable : Prop :=
  ∀ (w : Word) (row : Instr),
    w &&& maskOf row = matchOf row ↔ ∃ i, decode w = .ok i ∧ mnemonicOf i = mnemonicOf row

/-- Words written out from the spec's encodings and listings decode to the instructions they stand for
(95_test_vectors.md sections 2 and 3, whose register names and notation are G1 and D23, logs 25 and 26). -/
def Obligations.WrittenWordsDecode : Prop :=
  decode 0x012A5820 = .ok (.add 11 9 10) ∧ decode 0x01095822 = .ok (.sub 11 8 9) ∧
  decode 0x0128782A = .ok (.slt 15 9 8) ∧ decode 0x8C090004 = .ok (.lw 9 4 0) ∧
  decode 0xAC08001C = .ok (.sw 8 28 0) ∧ decode 0x116CFFFD = .ok (.beq 11 12 0xFFFD) ∧
  decode 0x08000004 = .ok (.j 4) ∧ decode 0x0C000002 = .ok (.jal 2) ∧ decode 0x03E00008 = .ok (.jr 31) ∧
  decode 0x00000000 = .error (.unsupportedFunction 0 0) ∧ decode 0x20080005 = .error (.unsupportedOpcode 8)

/-- R61: the text of a word has bit `31-k` as its character `k`, and reading that text gives the word; the rule's own
example is the last clause. -/
def Obligations.TextSpellsTheWordMsbFirst : Prop :=
  (∀ (text : List Char) (w : Word), itemOfText text = .word w →
    text.length = 32 ∧ ∀ k, k < 32 → text[k]? = some (if w.getLsbD (31 - k) then '1' else '0')) ∧
  (∀ w : Word, itemOfText (textOfWord w) = .word w) ∧
  textOfWord 0x012A5820 = ['0', '0', '0', '0', '0', '0', '0', '1', '0', '0', '1', '0', '1', '0', '1', '0',
    '0', '1', '0', '1', '1', '0', '0', '0', '0', '0', '1', '0', '0', '0', '0', '0']

/-- An item is malformed exactly when its text is not 32 characters of '0' and '1' (50_interfaces.md section 2). -/
def Obligations.ItemIsMalformedExactlyWhenItsTextIs : Prop :=
  ∀ text : List Char, itemOfText text = .malformed ↔ ¬(text.length = 32 ∧ ∀ c ∈ text, c = '0' ∨ c = '1')

/-! ### Immediates, targets and addresses -/

/-- The decoder hands on the raw field, and the immediate is read as a signed 16-bit number wherever it is used (R66 of
30_encoding.md): in ALU operand 2, in the address of LW and SW (R130 of 42_load_store.md) and in the branch target
(R67). Derived: the two sums are fixed for every base and pc, and that they wrap is the spec's decisions D2 (ADD, log 7)
and D5 (the pc, log 11). -/
def Obligations.ImmediateIsSignExtended : Prop :=
  (∀ imm : Imm, (imm.toNat < 0x8000 → (sext32 imm).toInt = imm.toNat) ∧
    (0x8000 ≤ imm.toNat → (sext32 imm).toInt = imm.toNat - 65536)) ∧
  (∀ imm : Imm, ∀ k, k < 16 → (sext32 imm).getLsbD k = imm.getLsbD k ∧ (sext32 imm).getLsbD (16 + k) = imm.getLsbD 15) ∧
  (∀ w : Word, ∀ k, k < 16 → (immOf w).getLsbD k = w.getLsbD k) ∧
  (∀ (base : Word) (imm : Imm), effectiveAddress base imm = base + sext32 imm) ∧
  (∀ (pc : Word) (imm : Imm), branchTarget pc imm = pc + 4 + (sext32 imm <<< 2)) ∧
  (∀ (c : ControlSignals) (w : Word) (s : State), c.alusrc = true → operand2 c w s = sext32 (immOf w)) ∧
  (sext32 0x8000).toInt = -32768 ∧ (sext32 0x0001).toInt = 1 ∧ (sext32 0xFFFF).toInt = -1

/-- The branch offset is four times the signed immediate, between -131072 and 131068 (30_encoding.md section 3), and the
target is that much past `pc + 4`; that the sum wraps is the spec's decision D5 (log 11). -/
def Obligations.BranchOffsetIsFourTimesTheImmediate : Prop :=
  ∀ (pc : Word) (imm : Imm),
    (branchOffset imm).toInt = 4 * imm.toInt ∧ -131072 ≤ (branchOffset imm).toInt ∧
    (branchOffset imm).toInt ≤ 131068 ∧
    branchTarget pc imm = BitVec.ofInt 32 (pc.toNat + 4 + 4 * imm.toInt)

/-! ### Control unit, ALU control and ALU -/

/-- R86: the control table, each signal the document gives a value; every other opcode gives none; and what the signals
choose and enable. -/
def Obligations.ControlTableAsGiven : Prop :=
  (∃ c, controlUnit 0 = some c ∧ c.regdest = true ∧ c.alusrc = false ∧ c.memtoreg = false ∧ c.regwrite = true ∧
    c.memread = false ∧ c.memwrite = false ∧ c.branch = false ∧ c.jump = false ∧ c.jal = false ∧ c.insttype = .rType) ∧
  (∃ c, controlUnit 35 = some c ∧ c.regdest = false ∧ c.alusrc = true ∧ c.memtoreg = true ∧ c.regwrite = true ∧
    c.memread = true ∧ c.memwrite = false ∧ c.branch = false ∧ c.jump = false ∧ c.jal = false ∧ c.insttype = .iAdd) ∧
  (∃ c, controlUnit 43 = some c ∧ c.alusrc = true ∧ c.regwrite = false ∧ c.memread = false ∧ c.memwrite = true ∧
    c.branch = false ∧ c.jump = false ∧ c.jal = false ∧ c.insttype = .iAdd) ∧
  (∃ c, controlUnit 4 = some c ∧ c.alusrc = false ∧ c.regwrite = false ∧ c.memread = false ∧ c.memwrite = false ∧
    c.branch = true ∧ c.jump = false ∧ c.jal = false ∧ c.insttype = .iSub) ∧
  (∃ c, controlUnit 2 = some c ∧ c.regwrite = false ∧ c.memread = false ∧ c.memwrite = false ∧ c.branch = false ∧
    c.jump = true ∧ c.jal = false) ∧
  (∃ c, controlUnit 3 = some c ∧ c.regwrite = true ∧ c.memread = false ∧ c.memwrite = false ∧ c.branch = false ∧
    c.jump = true ∧ c.jal = true) ∧
  (∀ op : Opcode, op ∉ supportedOpcodes → controlUnit op = none) ∧
  (∀ (c : ControlSignals) (w : Word), c.jal = false → writeTarget c w = if c.regdest then rdOf w else rtOf w) ∧
  (∀ (c : ControlSignals) (w : Word) (s : State), operand2 c w s = if c.alusrc then sext32 (immOf w) else s.reg (rtOf w)) ∧
  (∀ (c : ControlSignals) (k : Index) (result memval : Word) (s : State), writebackStage c k result memval s =
    if c.regwrite then s.writeReg k (if c.memtoreg then memval else result) else s) ∧
  (∀ (c : ControlSignals) (result data : Word) (s : State), memoryStage c result data s =
    if c.memread then (s.memRead result).map (fun v => (s, v))
    else if c.memwrite then (s.memWrite result data).map (fun t => (t, result)) else some (s, result))

/-- The signals the control table leaves blank are 0, and a blank instruction type is the tag for none: the spec's
decision D10 (log 16). -/
def Obligations.DontCareSignalsAreZero : Prop :=
  (∃ c, controlUnit 43 = some c ∧ c.regdest = false ∧ c.memtoreg = false) ∧
  (∃ c, controlUnit 4 = some c ∧ c.regdest = false ∧ c.memtoreg = false) ∧
  (∃ c, controlUnit 2 = some c ∧ c.regdest = false ∧ c.alusrc = false ∧ c.memtoreg = false ∧ c.insttype = .noType) ∧
  (∃ c, controlUnit 3 = some c ∧ c.regdest = false ∧ c.alusrc = false ∧ c.memtoreg = false ∧ c.insttype = .noType)

/-- R88: the ALU control table; funct matters for the R type alone, and any other funct there gives none. -/
def Obligations.AluControlTable : Prop :=
  (∀ fn : Funct, aluControl .iAdd fn = some (.operation .add) ∧ aluControl .iSub fn = some (.operation .sub)) ∧
  aluControl .rType 32 = some (.operation .add) ∧ aluControl .rType 34 = some (.operation .sub) ∧
  aluControl .rType 36 = some (.operation .and) ∧ aluControl .rType 37 = some (.operation .or) ∧
  aluControl .rType 42 = some (.operation .slt) ∧ aluControl .rType 39 = some (.operation .nor) ∧
  aluControl .rType 8 = some .jumpRegister ∧
  (∀ fn : Funct, fn ∉ supportedFuncts → aluControl .rType fn = none)

/-- The six ALU operations, on integers and on bits. Their meanings are the spec's general knowledge G2 (log 8), the
wrap of ADD and SUB its decision D2 (log 7), the exact comparison of SLT its decision D17 (log 8). -/
def Obligations.AluComputesExactly : Prop :=
  ∀ a b : Word,
    alu .add a b = BitVec.ofInt 32 (a.toInt + b.toInt) ∧ alu .sub a b = BitVec.ofInt 32 (a.toInt - b.toInt) ∧
    alu .add a b = BitVec.ofNat 32 (a.toNat + b.toNat) ∧
    (alu .slt a b = 1 ↔ a.toInt < b.toInt) ∧ (alu .slt a b = 0 ↔ b.toInt ≤ a.toInt) ∧
    (∀ k, k < 32 → (alu .and a b).getLsbD k = (a.getLsbD k && b.getLsbD k) ∧
      (alu .or a b).getLsbD k = (a.getLsbD k || b.getLsbD k) ∧
      (alu .nor a b).getLsbD k = (!a.getLsbD k && !b.getLsbD k))

/-- The zero flag of a subtraction says that the operands are equal, whatever overflows (40_datapath_control.md section
6; marked derived there, from the SUB of G2 and D2, logs 7 and 8). -/
def Obligations.ZeroFlagOfSubIsEquality : Prop :=
  (∀ v : Word, aluZero v = true ↔ ∀ k, k < 32 → v.getLsbD k = false) ∧
  (∀ a b : Word, aluZero (alu .sub a b) = true ↔ a = b)

/-- The step of R83, written over the blocks of the datapath, and the step through the decoded instruction's meaning
are one function (40_datapath_control.md section 1, whose order of tests is the spec's decision D14, log 17). How both
tell the end of the program is the model's own (log 2); what an abort holds and when a malformed item aborts are D7
and D11 (logs 4 and 5). -/
def Obligations.DatapathAgreesWithMeanings : Prop :=
  ∀ s : State, step s = datapathStep s

/-! ### The arithmetic and logic instructions -/

/-- ADD completes from every state: `rd` takes the sum modulo 2^32, and nothing else but pc, cycles and the records
changes. The sum's meaning is G2 (log 8), its wrap the decision D2 (log 7), the wrap of the pc D5 (log 11), a written
register 0 D1 (log 6). -/
def Obligations.AddWritesTheSum : Prop :=
  ∀ (rd rs rt : Index) (s : State), ∃ t, exec (.add rd rs rt) s = .next t ∧
    WritesReg s t rd (BitVec.ofInt 32 ((s.reg rs).toInt + (s.reg rt).toInt)) (s.pc + 4)

/-- SUB completes from every state: `rd` takes `rs` minus `rt` modulo 2^32, and nothing else but pc, cycles and the
records changes (G2, D2, D5, D1: logs 8, 7, 11, 6). -/
def Obligations.SubWritesTheDifference : Prop :=
  ∀ (rd rs rt : Index) (s : State), ∃ t, exec (.sub rd rs rt) s = .next t ∧
    WritesReg s t rd (BitVec.ofInt 32 ((s.reg rs).toInt - (s.reg rt).toInt)) (s.pc + 4)

/-- AND completes from every state: a bit of `rd` is 1 exactly when it is 1 in both sources (G2, D5, D1: logs 8, 11,
6). -/
def Obligations.AndWritesTheConjunction : Prop :=
  ∀ (rd rs rt : Index) (s : State), ∃ t v, exec (.and rd rs rt) s = .next t ∧ WritesReg s t rd v (s.pc + 4) ∧
    ∀ k, k < 32 → (v.getLsbD k = true ↔ (s.reg rs).getLsbD k = true ∧ (s.reg rt).getLsbD k = true)

/-- OR completes from every state: a bit of `rd` is 1 exactly when it is 1 in either source (G2, D5, D1: logs 8, 11,
6). -/
def Obligations.OrWritesTheDisjunction : Prop :=
  ∀ (rd rs rt : Index) (s : State), ∃ t v, exec (.or rd rs rt) s = .next t ∧ WritesReg s t rd v (s.pc + 4) ∧
    ∀ k, k < 32 → (v.getLsbD k = true ↔ (s.reg rs).getLsbD k = true ∨ (s.reg rt).getLsbD k = true)

/-- NOR completes from every state: a bit of `rd` is 1 exactly when it is 0 in both sources (G2, D5, D1: logs 8, 11,
6). -/
def Obligations.NorWritesTheComplement : Prop :=
  ∀ (rd rs rt : Index) (s : State), ∃ t v, exec (.nor rd rs rt) s = .next t ∧ WritesReg s t rd v (s.pc + 4) ∧
    ∀ k, k < 32 → (v.getLsbD k = true ↔ (s.reg rs).getLsbD k = false ∧ (s.reg rt).getLsbD k = false)

/-- SLT completes from every state: `rd` takes 1 when `rs` is the smaller signed number, 0 otherwise, exactly even where
the difference overflows (G2 and D17, log 8; D5, D1: logs 11, 6). -/
def Obligations.SltWritesTheComparison : Prop :=
  ∀ (rd rs rt : Index) (s : State), ∃ t v, exec (.slt rd rs rt) s = .next t ∧ WritesReg s t rd v (s.pc + 4) ∧
    ((s.reg rs).toInt < (s.reg rt).toInt → v = 1) ∧ ((s.reg rt).toInt ≤ (s.reg rs).toInt → v = 0)

/-- A write to register 0 takes effect and is read back, like any other: the spec's decision D1 (log 6). It is shown
by two ORs, one with destination 0, then one with register 0 as both sources; that OR gives `rs ||| rt`, and the `or`
of a value with itself that value, is the meaning of OR, general knowledge G2 (log 8; 41_alu_rtype.md section 3). OR
on all operands is OrWritesTheDisjunction. -/
def Obligations.RegisterZeroIsOrdinary : Prop :=
  ∀ (rd rs rt : Index) (s : State), ∃ t u, exec (.or 0 rs rt) s = .next t ∧ t.reg 0 = s.reg rs ||| s.reg rt ∧
    t.touchedReg = some ⟨0, s.reg rs ||| s.reg rt⟩ ∧
    exec (.or rd 0 0) t = .next u ∧ u.reg rd = s.reg rs ||| s.reg rt

/-! ### Load and store -/

/-- LW completes at every address 0 to 127, aligned or not: `rt` takes the whole word that holds the address, and
nothing else but pc, cycles and the register record changes. The range is the decision D4 (log 10), the ignored low
bits D3 (log 9), the wrap of the address's sum D2 (log 7), the wrap of the pc D5 (log 11), a written register 0 D1
(log 6). -/
def Obligations.LwLoadsTheWord : Prop :=
  ∀ (rt : Index) (imm : Imm) (rs : Index) (s : State),
    0 ≤ (effectiveAddress (s.reg rs) imm).toInt → (effectiveAddress (s.reg rs) imm).toInt ≤ 127 →
    ∃ t, exec (.lw rt imm rs) s = .next t ∧
      WritesReg s t rt (s.mem.read ((effectiveAddress (s.reg rs) imm).toNat / 4)) (s.pc + 4)

/-- SW completes at every address 0 to 127, aligned or not: the whole word that holds the address takes `rt`, and
nothing else but pc, cycles and the memory record changes (D4, D3, D2, D5: logs 10, 9, 7, 11). -/
def Obligations.SwStoresTheWord : Prop :=
  ∀ (rt : Index) (imm : Imm) (rs : Index) (s : State),
    0 ≤ (effectiveAddress (s.reg rs) imm).toInt → (effectiveAddress (s.reg rs) imm).toInt ≤ 127 →
    (wordIndex (effectiveAddress (s.reg rs) imm)).toNat = (effectiveAddress (s.reg rs) imm).toNat / 4 ∧
    ∃ t, exec (.sw rt imm rs) s = .next t ∧
      WritesWord s t (wordIndex (effectiveAddress (s.reg rs) imm)) (s.reg rt) (s.pc + 4)

/-- LW and SW at any other address abort with OutOfRangeAddress, which records the pc, the opcode and the address (the
spec's decisions D4 and D7, logs 10 and 4; the wrap of the address's sum D2, log 7). -/
def Obligations.LoadStoreAbortOutOfRange : Prop :=
  ∀ (rt : Index) (imm : Imm) (rs : Index) (s : State),
    (effectiveAddress (s.reg rs) imm).toInt < 0 ∨ 127 < (effectiveAddress (s.reg rs) imm).toInt →
    exec (.lw rt imm rs) s = .fault (.outOfRangeAddress s.pc 35 (effectiveAddress (s.reg rs) imm)) ∧
    exec (.sw rt imm rs) s = .fault (.outOfRangeAddress s.pc 43 (effectiveAddress (s.reg rs) imm))

/-- A load in the very next cycle reads what a store of the same word put there, register 0 as destination included
(20_memory.md section 7; the words are those of D3 and D4, logs 9 and 10, the wrap of the addresses' sums D2, log 7, a
written register 0 D1, log 6). -/
def Obligations.StoreThenLoadReadsTheStoredWord : Prop :=
  ∀ (rt rs rt' rs' : Index) (imm imm' : Imm) (s t : State), exec (.sw rt imm rs) s = .next t →
    (effectiveAddress (s.reg rs) imm).toNat / 4 = (effectiveAddress (s.reg rs') imm').toNat / 4 →
    ∃ u, exec (.lw rt' imm' rs') t = .next u ∧ u.reg rt' = s.reg rt

/-- R25: the touched-memory record is set by a store alone, to the word index and the value stored; a load marks exactly
the loaded register. (The index at an address that is not a multiple of 4 is the decision D3, log 9: the clause on the
index is stated for multiples of 4.) -/
def Obligations.OnlyStoresMarkMemory : Prop :=
  (∀ (i : Instr) (s t : State), exec i s = .next t → (∀ rt imm rs, i ≠ .sw rt imm rs) → t.touchedMem = none) ∧
  (∀ (rt : Index) (imm : Imm) (rs : Index) (s t : State), exec (.sw rt imm rs) s = .next t →
    (effectiveAddress (s.reg rs) imm).toNat % 4 = 0 →
    ∃ k : Index, 4 * k.toNat = (effectiveAddress (s.reg rs) imm).toNat ∧ t.touchedMem = some ⟨k, s.reg rt⟩) ∧
  (∀ (rt : Index) (imm : Imm) (rs : Index) (s t : State), exec (.lw rt imm rs) s = .next t →
    t.touchedReg = some ⟨rt, t.reg rt⟩ ∧ t.touchedMem = none)

/-! ### Control transfer -/

/-- BEQ completes from every state: equal operands go to `pc + 4` plus four times the signed immediate, unequal ones
to `pc + 4`, and nothing else but cycles and the cleared records changes. Equality through SUB is G2 (log 8) and its
wrap D2 (log 7), the wrap of the pc D5 (log 11). -/
def Obligations.BeqBranchesOnEquality : Prop :=
  ∀ (rs rt : Index) (imm : Imm) (s : State), ∃ t, exec (.beq rs rt imm) s = .next t ∧
    (s.reg rs = s.reg rt → WritesNothing s t (s.pc + 4 + BitVec.ofInt 32 (4 * imm.toInt))) ∧
    (s.reg rs ≠ s.reg rt → WritesNothing s t (s.pc + 4))

/-- R136: J. Its encoding, its control signals, and its effect from every state: the pc takes the jump target, whose
high four bits are the J's own pc's and whose low two bits are 0, and nothing else but cycles and the cleared records
changes; no register is read. -/
def Obligations.JGoesToTheJumpTarget : Prop :=
  (∀ w : Word, w &&& 0xFC000000 = 0x08000000 → decode w = .ok (.j (addressOf w))) ∧
  (∃ c, controlUnit 2 = some c ∧ c.regwrite = false ∧ c.memread = false ∧ c.memwrite = false ∧ c.branch = false ∧
    c.jump = true ∧ c.jal = false) ∧
  (∀ (address : JumpField) (s : State), ∃ t, exec (.j address) s = .next t ∧
    WritesNothing s t (s.pc.extractLsb' 28 4 ++ address ++ 0#2) ∧
    t.pc = (address.zeroExtend 32 <<< 2) ||| (s.pc &&& 0xF0000000)) ∧
  (∀ (address : JumpField) (s : State) (regs : Vector Word Config.numRegs),
    agreeButRegisters (exec (.j address) s) (exec (.j address) { s with regs := regs }))

/-- JAL completes from every state: register 31 takes `pc + 4`, the pc takes the jump target, both from the old pc, and
nothing else but cycles and the records changes. That `pc + 4` wraps is the decision D5 (log 11). -/
def Obligations.JalLinksAndJumps : Prop :=
  ∀ (address : JumpField) (s : State), ∃ t, exec (.jal address) s = .next t ∧
    WritesReg s t 31 (s.pc + 4) ((address.zeroExtend 32 <<< 2) ||| (s.pc &&& 0xF0000000))

/-- R138: JR. Its encoding with `rt`, `rd` and `shamt` ignored, its control signals and the jump-register flag, and its
effect from every state: the pc takes all 32 bits of the register, and nothing else but cycles and the cleared records
changes, although `regwrite` is 1. -/
def Obligations.JrGoesToTheRegister : Prop :=
  (∀ w : Word, w &&& 0xFC00003F = 0x00000008 → decode w = .ok (.jr (rsOf w))) ∧
  controlUnit 0 = some ⟨true, false, false, true, false, false, false, false, false, .rType⟩ ∧
  aluControl .rType 8 = some .jumpRegister ∧
  (∀ (rs : Index) (s : State), ∃ t, exec (.jr rs) s = .next t ∧ WritesNothing s t (s.reg rs))

/-- A pc that is not a multiple of 4 arises from JR alone (10_state.md section 3 and 20_memory.md section 6; that the
other paths keep or clear the low bits rests on the decisions D5 and D6, logs 11 and 12; a step at the end of the
program, which keeps the pc, is a next state by log 2). -/
def Obligations.MisalignedPcOnlyFromJr : Prop :=
  ∀ s t : State, step s = .next t → s.pc.toNat % 4 = 0 → t.pc.toNat % 4 ≠ 0 →
    ∃ w rs, s.fetch = some (.word w) ∧ decode w = .ok (.jr rs) ∧ t.pc = s.reg rs

/-! ### The step -/

/-- When the item at the pc is a word that decodes to an instruction, the step is that instruction's meaning, with
nothing around it: the pc, the cycle count and the records are the meaning's own (40_datapath_control.md section 1). -/
def Obligations.StepRunsTheDecodedInstruction : Prop :=
  ∀ (s : State) (w : Word) (i : Instr), s.fetch = some (.word w) → decode w = .ok i → i.wellFormed = true →
    step s = exec i s

/-- The fetch reads item `pc / 4` of the program, the pc unsigned, its low two bits ignored; past the end there is
none (20_memory.md section 6; the spec's decision D6, log 12). -/
def Obligations.FetchReadsItemPcOverFour : Prop :=
  ∀ s : State, s.fetch = s.program[s.pc.toNat / 4]? ∧
    (s.atEnd = true ↔ s.program.length ≤ s.pc.toNat / 4) ∧
    ∀ p : Word, p.toNat / 4 = s.pc.toNat / 4 → State.fetch { s with pc := p } = s.fetch

/-- A step that finds no instruction changes nothing, the records included, and so does every later one, and the
driving loop of R158 ends there (40_datapath_control.md section 1, 50_interfaces.md section 5). That item `pc / 4`
decides it at every pc, misaligned or with bit 31 set, is the decision D6 (log 12; 20_memory.md section 6); the
records are D9 (log 14); the same state as next state and the loop's fuel are the model's own (logs 2 and 22). -/
def Obligations.EndOfProgramChangesNothing : Prop :=
  ∀ (s : State) (n : Nat), s.program.length ≤ s.pc.toNat / 4 →
    step s = .next s ∧ drive (n + 1) s = ⟨[], s, .endOfProgram⟩

/-- A step that fetches a malformed item aborts with its pc (60_exceptions.md sections 1 and 2). The moment is the
spec's decision D11 (log 5), what the abort holds D7 (log 4); that the item at `pc / 4` is the one fetched, at every
pc, is D6 (log 12; 20_memory.md section 6). -/
def Obligations.MalformedItemAborts : Prop :=
  ∀ s : State, s.program[s.pc.toNat / 4]? = some .malformed → step s = .fault (.malformedInstruction s.pc)

/-- R171 and R172: a fetched word with an unsupported opcode, or with opcode 0 and an unsupported funct, aborts by name
with its pc, opcode and funct; and each of the two aborts is raised by the fetch of such a word alone. -/
def Obligations.IllegalWordsAbort : Prop :=
  (∀ (s : State) (w : Word), s.fetch = some (.word w) → opcodeOf w ∉ supportedOpcodes →
    step s = .fault (.unsupportedOpcode s.pc (opcodeOf w))) ∧
  (∀ (s : State) (w : Word), s.fetch = some (.word w) → opcodeOf w = 0 → functOf w ∉ supportedFuncts →
    step s = .fault (.unsupportedFunction s.pc 0 (functOf w))) ∧
  (∀ (s : State) (f : Fault), step s = .fault f → kindOfFault f = .unsupportedOpcode →
    ∃ w, s.fetch = some (.word w) ∧ opcodeOf w ∉ supportedOpcodes) ∧
  (∀ (s : State) (f : Fault), step s = .fault f → kindOfFault f = .unsupportedFunction →
    ∃ w, s.fetch = some (.word w) ∧ opcodeOf w = 0 ∧ functOf w ∉ supportedFuncts)

/-- The aborts of a step are the spec's and no others, each under its own condition, recording the pc of the offending
instruction, its opcode, and the funct or address (60_exceptions.md sections 1 and 2; what is recorded, the moment of
a malformed item, the range and the wrap of the address's sum are the decisions D7, D11, D4 and D2, logs 4, 5, 10 and
7). -/
def Obligations.StepAbortsAreTheFourKinds : Prop :=
  ∀ (s : State) (f : Fault), step s = .fault f →
    match f with
    | .malformedInstruction pc => pc = s.pc ∧ s.fetch = some .malformed
    | .unsupportedOpcode pc op => pc = s.pc ∧ ∃ w, s.fetch = some (.word w) ∧ op = opcodeOf w ∧ op ∉ supportedOpcodes
    | .unsupportedFunction pc op fn =>
      pc = s.pc ∧ op = 0 ∧ ∃ w, s.fetch = some (.word w) ∧ opcodeOf w = 0 ∧ fn = functOf w ∧ fn ∉ supportedFuncts
    | .outOfRangeAddress pc op ea =>
      pc = s.pc ∧ (op = 35 ∨ op = 43) ∧ (ea.toInt < 0 ∨ 127 < ea.toInt) ∧
        ∃ w, s.fetch = some (.word w) ∧ op = opcodeOf w ∧ ea = effectiveAddress (s.reg (rsOf w)) (immOf w)
    | .outOfRangeIndex _ => False

/-- A step has one of three outcomes, and is never refused: the end of the program, an executed instruction that
counts one cycle, an abort (40_datapath_control.md section 1; that the first changes not even the records is the
decision D9, log 14; how it is told is the model's own, log 2). -/
def Obligations.StepHasThreeOutcomes : Prop :=
  ∀ s : State,
    (s.atEnd = true ∧ step s = .next s) ∨
    (s.atEnd = false ∧ ∃ t, step s = .next t ∧ t.cycles = s.cycles + 1) ∨
    (s.atEnd = false ∧ ∃ f, step s = .fault f)

/-- The rules software must keep are enough, and needed: a step aborts nowhere exactly when it finds the end of the
program, or a word of the twelve whose LW or SW address is 0 to 127 (70_reset_and_hazards.md section 3; the range is
the decision D4, log 10, the wrap of the address's sum D2, log 7, the moment of a malformed item D11, log 5; that the
end of the program is no abort is told as log 2 says). -/
def Obligations.SoftwareRulesPreventAborts : Prop :=
  ∀ s : State, s.stepIsSafe ↔
    s.fetch = none ∨
    ∃ w i, s.fetch = some (.word w) ∧ decode w = .ok i ∧
      ∀ rt imm rs, i = .lw rt imm rs ∨ i = .sw rt imm rs →
        0 ≤ (effectiveAddress (s.reg rs) imm).toInt ∧ (effectiveAddress (s.reg rs) imm).toInt ≤ 127

/-! ### Whole-machine rules -/

/-- R14: the registers each instruction writes, and no other; every write sets the touched-register record, and an
instruction that writes none leaves it false. -/
def Obligations.RegistersWrittenOnlyAtDestination : Prop :=
  ∀ (i : Instr) (s t : State), exec i s = .next t →
    match destinationOf i with
    | some d => (∀ r, r ≠ d → t.reg r = s.reg r) ∧ t.touchedReg = some ⟨d, t.reg d⟩
    | none => (∀ r, t.reg r = s.reg r) ∧ t.touchedReg = none

/-- What an instruction does depends on no register but its sources, read as they were when the cycle began (10_state.md
section 2): J and JAL read none, and no instruction reads its destination unless it is a source too. -/
def Obligations.RegistersReadOnlyAtSources : Prop :=
  ∀ (i : Instr) (s : State) (regs : Vector Word Config.numRegs),
    (∀ r ∈ sourcesOf i, State.reg { s with regs := regs } r = s.reg r) →
    agreeButRegisters (exec i s) (exec i { s with regs := regs })

/-- R21: SW is the only instruction that writes the data memory and LW the only one that reads it; a step that executes
nothing else touches it. -/
def Obligations.OnlySwWritesOnlyLwReadsMemory : Prop :=
  (∀ s t : State, step s = .next t → t.mem ≠ s.mem →
    ∃ w rt imm rs, s.fetch = some (.word w) ∧ decode w = .ok (.sw rt imm rs)) ∧
  (∀ (i : Instr) (s : State) (m : Memory), (∀ rt imm rs, i ≠ .lw rt imm rs) →
    agreeButMemory (exec i s) (exec i { s with mem := m }))

/-- R54: no step writes the program, so at every pc the fetch reads what it read before. -/
def Obligations.NoStepWritesTheProgram : Prop :=
  ∀ s t : State, step s = .next t →
    t.program = s.program ∧ ∀ p : Word, State.fetch { t with pc := p } = State.fetch { s with pc := p }

/-- R99: every executed instruction counts exactly one cycle, whichever path the pc takes; the end of the program and an
abort count none; over a run, `cycles` grows by the number of instructions executed. (The end is told and the loop
bounded in the model's form, logs 2 and 22; what is counted is the rule's, whatever the fuel.) -/
def Obligations.CyclesCountExecutedInstructions : Prop :=
  (∀ s t : State, step s = .next t → t.cycles = if s.atEnd then s.cycles else s.cycles + 1) ∧
  (∀ (n : Nat) (s : State), (drive n s).final.cycles = s.cycles + (drive n s).trace.length)

/-- An executed instruction marks at most one register and at most one memory word, and never both
(40_datapath_control.md section 10, marked derived there). -/
def Obligations.NeverBothRecords : Prop :=
  ∀ s t : State, step s = .next t → s.atEnd = false → t.touchedReg = none ∨ t.touchedMem = none

/-- Every change is reported: the registers and the memory after an executed instruction are those before it with its
observation's records carried out (50_interfaces.md section 4; that equal memories are equal lists is the model's own,
log 3). -/
def Obligations.EveryChangeIsReported : Prop :=
  ∀ s t : State, step s = .next t → s.atEnd = false →
    t.regs = replayRegs s.regs (observe t).touchedReg ∧ t.mem = replayMem s.mem (observe t).touchedMem ∧
    (observe t).cycles = s.cycles + 1 ∧ (observe t).pc = t.pc

/-- Every step keeps the invariant: memory in canonical form over the 32 words, the program within 2^30 items, touched
records that report what stands in the state, and at most one of them (10_state.md, 50_interfaces.md section 4). The
form of memory and the program as a field are the model's own (logs 3 and 1), the bound the decision D16 (log 18), a
record without a value where its flag is false log 15, a step at the end of the program as a next state log 2. -/
def Obligations.StepKeepsTheInvariant : Prop :=
  ∀ s t : State, s.Inv → step s = .next t → t.Inv

/-- The state after reset meets the invariant (logs 1, 3, 15 and 18). -/
def Obligations.ResetMeetsTheInvariant : Prop := State.reset.Inv

/-- R31: after reset the pc is 0, every register and every data-memory word is 0, and no cycle has been counted. -/
def Obligations.ResetClearsEverything : Prop :=
  State.reset.pc = 0 ∧ (∀ r : Index, State.reset.reg r = 0) ∧ (∀ k : Index, State.reset.word k = 0) ∧
    State.reset.cycles = 0

/-- After reset both touched flags are false, the spec's decision D12 (log 15), and no program has been supplied, the
model's own (log 1), so a step finds the end of the program, which answers the same state: the records are D9 (log
14), the same state as next state the model's own (log 2). -/
def Obligations.ResetHasNoRecordAndNoProgram : Prop :=
  State.reset.touchedReg = none ∧ State.reset.touchedMem = none ∧ State.reset.program = [] ∧
    step State.reset = .next State.reset

/-! ### The interface -/

/-- R155: a pre-load with an index outside 0 to 31 is refused with OutOfRangeAddress and the run does not start; any
other pre-load is carried out. -/
def Obligations.PreloadRefusesIndicesOutOfRange : Prop :=
  (∀ (l : List Assignment) (p : List Item) (s : State), (∃ a ∈ l, 31 < indexOfAssignment a) →
    ∃ f g, preload l s = .error f ∧ kindOfFault f = .outOfRangeAddress ∧
      boot l p = .error g ∧ kindOfFault g = .outOfRangeAddress) ∧
  (∀ (l : List Assignment) (s : State), (∀ a ∈ l, indexOfAssignment a ≤ 31) → ∃ t, preload l s = .ok t)

/-- A pre-load sets exactly the registers and words it names, a later assignment overriding an earlier one, and leaves
the pc, the cycle count, the records and the program alone (50_interfaces.md section 3; the order is the spec's decision
D19, log 20). -/
def Obligations.PreloadSetsWhatItNames : Prop :=
  ∀ (l : List Assignment) (s t : State), preload l s = .ok t →
    (∀ r : Index, t.reg r = (assignedReg l r.toNat).getD (s.reg r)) ∧
    (∀ k : Nat, t.mem.read k = (assignedWord l k).getD (s.mem.read k)) ∧
    t.pc = s.pc ∧ t.cycles = s.cycles ∧ t.touchedReg = s.touchedReg ∧ t.touchedMem = s.touchedMem ∧
    t.program = s.program

/-- Every state a run can start in meets the invariant (50_interfaces.md section 3; the form of memory and the program
as a field are the model's own, logs 3 and 1, the bound the decision D16, log 18, the false flags D12, log 15). -/
def Obligations.BootMeetsTheInvariant : Prop :=
  ∀ (l : List Assignment) (p : List Item) (s : State), programWellFormed p = true → boot l p = .ok s →
    s.Inv ∧ s.pc = 0 ∧ s.cycles = 0 ∧ s.program = p

/-- A run that ended, ended in a state that steps no further: at the end of the program every step changes nothing,
and after an abort, in the state before the offending instruction, every step gives the same abort (50_interfaces.md
section 5, 60_exceptions.md section 2). The unchanged state after an abort is the decision D7 (log 4), the records at
the end of the program D9 (log 14); that the end of the program answers the same state as next state, and the loop's
fuel, are the model's own (logs 2 and 22). -/
def Obligations.EndedRunsAreOver : Prop :=
  ∀ (n : Nat) (s : State),
    ((drive n s).ended = .endOfProgram →
      (drive n s).final.atEnd = true ∧ step (drive n s).final = .next (drive n s).final) ∧
    (∀ f, (drive n s).ended = .aborted f →
      step (drive n s).final = .fault f ∧ ∀ m, drive (m + 1) (drive n s).final = ⟨[], (drive n s).final, .aborted f⟩) ∧
    (∀ r, (drive n s).ended ≠ .refused r)

/-- The fuel of the driving loop bounds a run and shapes nothing else: a run that ended, ended so with any more fuel
(70_reset_and_hazards.md section 4; the fuel is the model's own, log 22). -/
def Obligations.FuelOnlyBoundsTheRun : Prop :=
  ∀ (n m : Nat) (s : State), (drive n s).ended ≠ .outOfFuel → drive (n + m) s = drive n s
end

