-- ==== Sys2Proof/Laws/Decode.lean ====
section
/-! SUPPORT. The fields of an encoded word, what the mask of a row keeps of a word, and the inversion of the decoder:
what it accepts and what it rejects. -/

namespace Sys2Proof

/-! ### Fields of the three formats (R63 to R65) -/

section Fields
variable (op : Opcode) (rs rt rd : Index) (fn : Funct) (imm : Imm) (a : JumpField)

@[simp] theorem opcodeOf_encodeR : opcodeOf (encodeR rs rt rd fn) = opRType := by
  unfold opcodeOf encodeR
  rw [BitVec.extractLsb'_append_eq_of_le (by decide), BitVec.extractLsb'_append_eq_of_le (by decide), BitVec.extractLsb'_append_eq_of_le (by decide), BitVec.extractLsb'_append_eq_of_le (by decide), BitVec.extractLsb'_append_eq_of_le (by decide)]
  exact BitVec.extractLsb'_eq_self

@[simp] theorem rsOf_encodeR : rsOf (encodeR rs rt rd fn) = rs := by
  unfold rsOf encodeR
  rw [BitVec.extractLsb'_append_eq_of_le (by decide), BitVec.extractLsb'_append_eq_of_le (by decide), BitVec.extractLsb'_append_eq_of_le (by decide), BitVec.extractLsb'_append_eq_of_le (by decide), BitVec.extractLsb'_append_eq_of_add_le (by decide)]
  exact BitVec.extractLsb'_eq_self

@[simp] theorem rtOf_encodeR : rtOf (encodeR rs rt rd fn) = rt := by
  unfold rtOf encodeR
  rw [BitVec.extractLsb'_append_eq_of_le (by decide), BitVec.extractLsb'_append_eq_of_le (by decide), BitVec.extractLsb'_append_eq_of_le (by decide), BitVec.extractLsb'_append_eq_of_add_le (by decide)]
  exact BitVec.extractLsb'_eq_self

@[simp] theorem rdOf_encodeR : rdOf (encodeR rs rt rd fn) = rd := by
  unfold rdOf encodeR
  rw [BitVec.extractLsb'_append_eq_of_le (by decide), BitVec.extractLsb'_append_eq_of_le (by decide), BitVec.extractLsb'_append_eq_of_add_le (by decide)]
  exact BitVec.extractLsb'_eq_self

@[simp] theorem functOf_encodeR : functOf (encodeR rs rt rd fn) = fn := by
  unfold functOf encodeR
  rw [BitVec.extractLsb'_append_eq_of_add_le (by decide)]
  exact BitVec.extractLsb'_eq_self

@[simp] theorem opcodeOf_encodeI : opcodeOf (encodeI op rs rt imm) = op := by
  unfold opcodeOf encodeI
  rw [BitVec.extractLsb'_append_eq_of_le (by decide), BitVec.extractLsb'_append_eq_of_le (by decide), BitVec.extractLsb'_append_eq_of_le (by decide)]
  exact BitVec.extractLsb'_eq_self

@[simp] theorem rsOf_encodeI : rsOf (encodeI op rs rt imm) = rs := by
  unfold rsOf encodeI
  rw [BitVec.extractLsb'_append_eq_of_le (by decide), BitVec.extractLsb'_append_eq_of_le (by decide), BitVec.extractLsb'_append_eq_of_add_le (by decide)]
  exact BitVec.extractLsb'_eq_self

@[simp] theorem rtOf_encodeI : rtOf (encodeI op rs rt imm) = rt := by
  unfold rtOf encodeI
  rw [BitVec.extractLsb'_append_eq_of_le (by decide), BitVec.extractLsb'_append_eq_of_add_le (by decide)]
  exact BitVec.extractLsb'_eq_self

@[simp] theorem immOf_encodeI : immOf (encodeI op rs rt imm) = imm := by
  unfold immOf encodeI
  rw [BitVec.extractLsb'_append_eq_of_add_le (by decide)]
  exact BitVec.extractLsb'_eq_self

@[simp] theorem opcodeOf_encodeJ : opcodeOf (encodeJ op a) = op := by
  unfold opcodeOf encodeJ
  rw [BitVec.extractLsb'_append_eq_of_le (by decide)]
  exact BitVec.extractLsb'_eq_self

@[simp] theorem addressOf_encodeJ : addressOf (encodeJ op a) = a := by
  unfold addressOf encodeJ
  rw [BitVec.extractLsb'_append_eq_of_add_le (by decide)]
  exact BitVec.extractLsb'_eq_self

end Fields

/-! ### What a mask keeps (R70) -/

theorem opcode_mask (w : Word) : w &&& 0xFC000000 = (opcodeOf w ++ (0 : BitVec 26) : BitVec (6 + 26)) := by
  apply BitVec.eq_of_getLsbD_eq
  intro k hk
  simp only [BitVec.getLsbD_append, opcodeOf, BitVec.getLsbD_and, BitVec.getLsbD_extractLsb']
  interval_cases k <;> simp

theorem opcode_funct_mask (w : Word) :
    w &&& 0xFC00003F = (opcodeOf w ++ (0 : BitVec 20) ++ functOf w : BitVec (6 + 20 + 6)) := by
  apply BitVec.eq_of_getLsbD_eq
  intro k hk
  simp only [BitVec.getLsbD_append, opcodeOf, functOf, BitVec.getLsbD_and, BitVec.getLsbD_extractLsb']
  interval_cases k <;> simp

/-! ### Inversion of the decoder -/

/-- What an R-type word decodes to (R70). -/
theorem decodeRType_ok {w : Word} {i : Instr} (h : decodeRType w = .ok i) :
    (functOf w = fnAdd ∧ i = .add (rdOf w) (rsOf w) (rtOf w)) ∨
    (functOf w = fnSub ∧ i = .sub (rdOf w) (rsOf w) (rtOf w)) ∨
    (functOf w = fnAnd ∧ i = .and (rdOf w) (rsOf w) (rtOf w)) ∨
    (functOf w = fnOr ∧ i = .or (rdOf w) (rsOf w) (rtOf w)) ∨
    (functOf w = fnSlt ∧ i = .slt (rdOf w) (rsOf w) (rtOf w)) ∨
    (functOf w = fnNor ∧ i = .nor (rdOf w) (rsOf w) (rtOf w)) ∨
    (functOf w = fnJr ∧ i = .jr (rsOf w)) := by
  unfold decodeRType at h
  simp only at h
  split_ifs at h with h1 h2 h3 h4 h5 h6 h7 <;> simp only [Except.ok.injEq] at h <;> subst h <;> tauto

/-- What a word decodes to (R69). -/
theorem decode_ok {w : Word} {i : Instr} (h : decode w = .ok i) :
    (opcodeOf w = opRType ∧ decodeRType w = .ok i) ∨
    (opcodeOf w = opLw ∧ i = .lw (rtOf w) (immOf w) (rsOf w)) ∨
    (opcodeOf w = opSw ∧ i = .sw (rtOf w) (immOf w) (rsOf w)) ∨
    (opcodeOf w = opBeq ∧ i = .beq (rsOf w) (rtOf w) (immOf w)) ∨
    (opcodeOf w = opJ ∧ i = .j (addressOf w)) ∨
    (opcodeOf w = opJal ∧ i = .jal (addressOf w)) := by
  unfold decode at h
  simp only at h
  split_ifs at h with h1 h2 h3 h4 h5 h6
  · exact .inl ⟨h1, h⟩
  all_goals simp only [Except.ok.injEq] at h
  all_goals subst h; tauto

/-- Why a word is rejected (R72, R73). -/
theorem decode_error {w : Word} {r : Reject} (h : decode w = .error r) :
    (opcodeOf w = opRType ∧ r = .unsupportedFunction opRType (functOf w)) ∨
    (opcodeOf w ≠ opRType ∧ r = .unsupportedOpcode (opcodeOf w)) := by
  unfold decode at h
  simp only at h
  split_ifs at h with h1
  · unfold decodeRType at h
    simp only at h
    split_ifs at h
    simp only [Except.error.injEq] at h
    exact .inl ⟨h1, h.symm⟩
  · simp only [Except.error.injEq] at h
    exact .inr ⟨h1, h.symm⟩

end Sys2Proof
end

