-- ==== Sys2Proof/Laws/Memory.lean ====
section
/-! SUPPORT. The data memory: a read after a write, a write leaves every other word alone, every operation keeps the
canonical form, and in canonical form equal reads are equal lists. The first two hold of every list, canonical or
not. -/

namespace Sys2Proof.Machine

@[simp] theorem Memory.read_nil (k : Nat) : Memory.read [] k = Memory.unlisted := rfl

theorem Memory.read_cons (a k : Nat) (v : Word) (m : Memory) :
    Memory.read ((a, v) :: m) k = if a = k then v else Memory.read m k := rfl

theorem Memory.read_unlisted (m : Memory) (k : Nat) (h : ∀ c ∈ m, c.1 ≠ k) : m.read k = Memory.unlisted := by
  induction m with
  | nil => rfl
  | cons c m ih =>
    have hc := h c (by simp)
    rw [Memory.read_cons, if_neg hc]
    exact ih fun d hd => h d (by simp [hd])

theorem Memory.mem_erase (m : Memory) (k : Nat) (c : Nat × Word) : c ∈ m.erase k ↔ c ∈ m ∧ c.1 ≠ k := by
  simp [Memory.erase]

theorem Memory.read_erase_same (m : Memory) (k : Nat) : (m.erase k).read k = Memory.unlisted :=
  Memory.read_unlisted _ _ fun c hc => ((Memory.mem_erase m k c).1 hc).2

theorem Memory.read_erase_other (m : Memory) (k j : Nat) (h : j ≠ k) : (m.erase k).read j = m.read j := by
  induction m with
  | nil => rfl
  | cons c m ih =>
    by_cases hc : c.1 = k
    · have : Memory.erase (c :: m) k = Memory.erase m k := by simp [Memory.erase, hc]
      rw [this, ih, Memory.read_cons, if_neg (hc ▸ h.symm)]
    · have : Memory.erase (c :: m) k = c :: Memory.erase m k := by simp [Memory.erase, hc]
      rw [this, Memory.read_cons, Memory.read_cons, ih]

theorem Memory.read_insert_same (m : Memory) (k : Nat) (v : Word) (h : ∀ c ∈ m, c.1 ≠ k) :
    (m.insert k v).read k = v := by
  induction m with
  | nil => simp [Memory.insert, Memory.read_cons]
  | cons c m ih =>
    have hc : c.1 ≠ k := h c (by simp)
    unfold Memory.insert
    split
    · simp [Memory.read_cons]
    · rw [Memory.read_cons, if_neg hc]
      exact ih fun d hd => h d (by simp [hd])

theorem Memory.read_insert_other (m : Memory) (k j : Nat) (v : Word) (h : j ≠ k) :
    (m.insert k v).read j = m.read j := by
  induction m with
  | nil => simp [Memory.insert, Memory.read_cons, h.symm]
  | cons c m ih =>
    unfold Memory.insert
    split
    · rw [Memory.read_cons, if_neg h.symm]
    · rw [Memory.read_cons, Memory.read_cons, ih]

/-- A read after a write to the same word gives the value written (R42). -/
@[simp] theorem Memory.read_write_same (m : Memory) (k : Nat) (v : Word) : (m.write k v).read k = v := by
  unfold Memory.write
  split
  · next h => rw [Memory.read_erase_same, h]
  · exact Memory.read_insert_same _ _ _ fun c hc => ((Memory.mem_erase m k c).1 hc).2

/-- A write leaves every other word alone (R42). -/
theorem Memory.read_write_other (m : Memory) (k j : Nat) (v : Word) (h : j ≠ k) :
    (m.write k v).read j = m.read j := by
  unfold Memory.write
  split
  · exact Memory.read_erase_other m k j h
  · rw [Memory.read_insert_other _ _ _ _ h, Memory.read_erase_other _ _ _ h]

theorem Memory.mem_insert (m : Memory) (k : Nat) (v : Word) (c : Nat × Word) :
    c ∈ m.insert k v ↔ c = (k, v) ∨ c ∈ m := by
  induction m with
  | nil => simp [Memory.insert]
  | cons d m ih =>
    unfold Memory.insert
    split
    · simp
    · simp only [List.mem_cons, ih]
      tauto

theorem Memory.wf_nil : Memory.wf [] := by decide

/-- Taking a word off the list keeps the canonical form. -/
theorem Memory.wf_erase (m : Memory) (k : Nat) (h : m.wf) : (m.erase k).wf :=
  ⟨h.1.filter _, fun c hc => h.2 c ((Memory.mem_erase m k c).1 hc).1⟩

theorem Memory.pairwise_insert (m : Memory) (k : Nat) (v : Word) (h : m.Pairwise fun c d => c.1 < d.1)
    (hk : ∀ c ∈ m, c.1 ≠ k) : (m.insert k v).Pairwise fun c d => c.1 < d.1 := by
  induction m with
  | nil => simp [Memory.insert]
  | cons d m ih =>
    have hd : d.1 ≠ k := hk d (by simp)
    rw [List.pairwise_cons] at h
    unfold Memory.insert
    split
    · next hlt =>
      refine List.pairwise_cons.2 ⟨fun c hc => ?_, List.pairwise_cons.2 h⟩
      rcases List.mem_cons.1 hc with rfl | hc
      · exact hlt
      · exact Nat.lt_trans hlt (h.1 c hc)
    · next hge =>
      refine List.pairwise_cons.2 ⟨fun c hc => ?_, ih h.2 fun c hc => hk c (by simp [hc])⟩
      rcases (Memory.mem_insert m k v c).1 hc with rfl | hc
      · have : d.1 ≠ k := hd
        simp only at hge ⊢
        omega
      · exact h.1 c hc

/-- A write to one of the 32 words keeps the canonical form. -/
theorem Memory.wf_write (m : Memory) (k : Nat) (v : Word) (h : m.wf) (hk : k < Config.dmemWords) :
    (m.write k v).wf := by
  unfold Memory.write
  split
  · exact Memory.wf_erase m k h
  · next hv =>
    have he := Memory.wf_erase m k h
    refine ⟨Memory.pairwise_insert _ _ _ he.1 fun c hc => ((Memory.mem_erase m k c).1 hc).2, fun c hc => ?_⟩
    rcases (Memory.mem_insert _ k v c).1 hc with rfl | hc
    · exact ⟨hk, hv⟩
    · exact he.2 c hc

/-- In canonical form, a word is listed exactly at the value it reads as. -/
theorem Memory.mem_iff_read (m : Memory) (h : m.wf) (k : Nat) (v : Word) :
    (k, v) ∈ m ↔ m.read k = v ∧ v ≠ Memory.unlisted := by
  induction m with
  | nil => simp only [List.not_mem_nil, Memory.read_nil, false_iff]; tauto
  | cons c m ih =>
    have hp := List.pairwise_cons.1 h.1
    have hm : Memory.wf m := ⟨hp.2, fun d hd => h.2 d (by simp [hd])⟩
    obtain ⟨a, w⟩ := c
    rw [Memory.read_cons]
    by_cases ha : a = k
    · subst ha
      have hnot : (a, v) ∉ m := fun hmem => Nat.lt_irrefl _ (hp.1 (a, v) hmem)
      have hw := (h.2 (a, w) (by simp)).2
      simp only [List.mem_cons, Prod.mk.injEq, true_and, hnot, or_false, if_true]
      constructor
      · rintro rfl
        exact ⟨rfl, hw⟩
      · exact fun e => e.1.symm
    · have hne : (k, v) ≠ (a, w) := fun e => ha (congrArg Prod.fst e).symm
      simp only [List.mem_cons, hne, false_or, if_neg ha]
      exact ih hm

/-- Equal memories are equal lists: two canonical lists that read alike are the same. -/
theorem Memory.eq_of_read (m n : Memory) (hm : m.wf) (hn : n.wf) (h : ∀ k, m.read k = n.read k) : m = n := by
  have nodup : ∀ l : Memory, l.wf → l.Nodup := fun l hl =>
    hl.1.imp (S := fun c d => c ≠ d) fun {c d} hlt e => Nat.lt_irrefl d.1 (e ▸ hlt)
  have hp : m.Perm n := (List.perm_ext_iff_of_nodup (nodup m hm) (nodup n hn)).2 fun c => by
    obtain ⟨k, v⟩ := c
    rw [Memory.mem_iff_read m hm, Memory.mem_iff_read n hn, h]
  exact hp.eq_of_pairwise (fun a b _ _ h1 h2 => absurd (Nat.lt_trans h1 h2) (Nat.lt_irrefl _)) hm.1 hn.1

end Sys2Proof.Machine
end

