-- ==== Sys2Proof/Laws/State.lean ====
section
/-! SUPPORT. What each update of the state leaves in each field: one lemma per field per update, so that no later proof
unfolds a record update; and how a register and a memory word read after an update. -/

namespace Sys2Proof.Machine

variable (s : State)

/-! ### beginCycle -/

@[simp] theorem State.beginCycle_regs : (s.beginCycle).regs = s.regs := rfl
@[simp] theorem State.beginCycle_mem : (s.beginCycle).mem = s.mem := rfl
@[simp] theorem State.beginCycle_pc : (s.beginCycle).pc = s.pc := rfl
@[simp] theorem State.beginCycle_cycles : (s.beginCycle).cycles = s.cycles := rfl
@[simp] theorem State.beginCycle_touchedReg : (s.beginCycle).touchedReg = none := rfl
@[simp] theorem State.beginCycle_touchedMem : (s.beginCycle).touchedMem = none := rfl
@[simp] theorem State.beginCycle_program : (s.beginCycle).program = s.program := rfl
@[simp] theorem State.beginCycle_reg (r : Index) : (s.beginCycle).reg r = s.reg r := rfl
@[simp] theorem State.beginCycle_word (n : Index) : (s.beginCycle).word n = s.word n := rfl

/-! ### endCycle -/

@[simp] theorem State.endCycle_regs (p : Word) : (s.endCycle p).regs = s.regs := rfl
@[simp] theorem State.endCycle_mem (p : Word) : (s.endCycle p).mem = s.mem := rfl
@[simp] theorem State.endCycle_pc (p : Word) : (s.endCycle p).pc = p := rfl
@[simp] theorem State.endCycle_cycles (p : Word) : (s.endCycle p).cycles = s.cycles + 1 := rfl
@[simp] theorem State.endCycle_touchedReg (p : Word) : (s.endCycle p).touchedReg = s.touchedReg := rfl
@[simp] theorem State.endCycle_touchedMem (p : Word) : (s.endCycle p).touchedMem = s.touchedMem := rfl
@[simp] theorem State.endCycle_program (p : Word) : (s.endCycle p).program = s.program := rfl
@[simp] theorem State.endCycle_reg (p : Word) (r : Index) : (s.endCycle p).reg r = s.reg r := rfl
@[simp] theorem State.endCycle_word (p : Word) (n : Index) : (s.endCycle p).word n = s.word n := rfl

/-! ### writeReg -/

@[simp] theorem State.writeReg_regs (i : Index) (v : Word) : (s.writeReg i v).regs = s.regs.set i.toNat v (Config.index_lt_numRegs i) := rfl
@[simp] theorem State.writeReg_mem (i : Index) (v : Word) : (s.writeReg i v).mem = s.mem := rfl
@[simp] theorem State.writeReg_pc (i : Index) (v : Word) : (s.writeReg i v).pc = s.pc := rfl
@[simp] theorem State.writeReg_cycles (i : Index) (v : Word) : (s.writeReg i v).cycles = s.cycles := rfl
@[simp] theorem State.writeReg_touchedReg (i : Index) (v : Word) : (s.writeReg i v).touchedReg = some ⟨i, v⟩ := rfl
@[simp] theorem State.writeReg_touchedMem (i : Index) (v : Word) : (s.writeReg i v).touchedMem = s.touchedMem := rfl
@[simp] theorem State.writeReg_program (i : Index) (v : Word) : (s.writeReg i v).program = s.program := rfl
@[simp] theorem State.writeReg_word (i : Index) (v : Word) (n : Index) : (s.writeReg i v).word n = s.word n := rfl

/-! ### writeWord -/

@[simp] theorem State.writeWord_regs (k : Index) (v : Word) : (s.writeWord k v).regs = s.regs := rfl
@[simp] theorem State.writeWord_mem (k : Index) (v : Word) : (s.writeWord k v).mem = s.mem.write k.toNat v := rfl
@[simp] theorem State.writeWord_pc (k : Index) (v : Word) : (s.writeWord k v).pc = s.pc := rfl
@[simp] theorem State.writeWord_cycles (k : Index) (v : Word) : (s.writeWord k v).cycles = s.cycles := rfl
@[simp] theorem State.writeWord_touchedReg (k : Index) (v : Word) : (s.writeWord k v).touchedReg = s.touchedReg := rfl
@[simp] theorem State.writeWord_touchedMem (k : Index) (v : Word) : (s.writeWord k v).touchedMem = some ⟨k, v⟩ := rfl
@[simp] theorem State.writeWord_program (k : Index) (v : Word) : (s.writeWord k v).program = s.program := rfl
@[simp] theorem State.writeWord_reg (k : Index) (v : Word) (r : Index) : (s.writeWord k v).reg r = s.reg r := rfl

/-! ### load -/

@[simp] theorem State.load_regs (p : List Item) : (s.load p).regs = s.regs := rfl
@[simp] theorem State.load_mem (p : List Item) : (s.load p).mem = s.mem := rfl
@[simp] theorem State.load_pc (p : List Item) : (s.load p).pc = s.pc := rfl
@[simp] theorem State.load_cycles (p : List Item) : (s.load p).cycles = s.cycles := rfl
@[simp] theorem State.load_touchedReg (p : List Item) : (s.load p).touchedReg = s.touchedReg := rfl
@[simp] theorem State.load_touchedMem (p : List Item) : (s.load p).touchedMem = s.touchedMem := rfl
@[simp] theorem State.load_program (p : List Item) : (s.load p).program = p := rfl
@[simp] theorem State.load_reg (p : List Item) (r : Index) : (s.load p).reg r = s.reg r := rfl
@[simp] theorem State.load_word (p : List Item) (n : Index) : (s.load p).word n = s.word n := rfl

/-! ### placeAtPc -/

@[simp] theorem State.placeAtPc_regs (x : Item) : (s.placeAtPc x).regs = s.regs := rfl
@[simp] theorem State.placeAtPc_mem (x : Item) : (s.placeAtPc x).mem = s.mem := rfl
@[simp] theorem State.placeAtPc_pc (x : Item) : (s.placeAtPc x).pc = s.pc := rfl
@[simp] theorem State.placeAtPc_cycles (x : Item) : (s.placeAtPc x).cycles = s.cycles := rfl
@[simp] theorem State.placeAtPc_touchedReg (x : Item) : (s.placeAtPc x).touchedReg = s.touchedReg := rfl
@[simp] theorem State.placeAtPc_touchedMem (x : Item) : (s.placeAtPc x).touchedMem = s.touchedMem := rfl
@[simp] theorem State.placeAtPc_program (x : Item) : (s.placeAtPc x).program = placeItem s.program (fetchIndex s.pc) x := rfl
@[simp] theorem State.placeAtPc_reg (x : Item) (r : Index) : (s.placeAtPc x).reg r = s.reg r := rfl
@[simp] theorem State.placeAtPc_word (x : Item) (n : Index) : (s.placeAtPc x).word n = s.word n := rfl

/-! ### Registers after a write -/

theorem State.reg_eq (i : Index) : s.reg i = s.regs[i.toNat]'(Config.index_lt_numRegs i) := rfl

@[simp] theorem State.writeReg_reg_same (i : Index) (v : Word) : (s.writeReg i v).reg i = v := by
  simp [State.reg_eq]

theorem State.writeReg_reg_other (i r : Index) (v : Word) (h : r ≠ i) : (s.writeReg i v).reg r = s.reg r := by
  have hne : i.toNat ≠ r.toNat := fun e => h (BitVec.eq_of_toNat_eq e.symm)
  simp [State.reg_eq, hne]

/-- Two register files that read alike at every index are the same. -/
theorem regs_ext (t : State) (h : ∀ r, t.reg r = s.reg r) : t.regs = s.regs := by
  apply Vector.ext
  intro i hi
  have hi' : i < 2 ^ 5 := hi
  have hr := h (BitVec.ofNat 5 i)
  simp only [State.reg_eq, BitVec.toNat_ofNat, Nat.mod_eq_of_lt hi'] at hr
  exact hr

/-! ### Reset -/

@[simp] theorem reset_reg (r : Index) : State.reset.reg r = 0 := by
  simp [State.reg_eq, State.reset]

@[simp] theorem reset_word (k : Index) : State.reset.word k = 0 := rfl

end Sys2Proof.Machine
end

