-- ==== Sys2Proof/Laws/Ops.lean ====
section
/-! SUPPORT. For each shared operation of the machine, one lemma that says everything it can do: the two memory
primitives, the word reads after a write, the fetch, and the placing of an item. -/

namespace Sys2Proof.Machine

variable (s : State)

/-! ### Data memory -/

theorem State.word_eq (k : Index) : s.word k = s.mem.read k.toNat := rfl

@[simp] theorem State.writeWord_word_same (k : Index) (v : Word) : (s.writeWord k v).word k = v := by
  simp [State.word_eq]

theorem State.writeWord_word_other (k n : Index) (v : Word) (h : n ≠ k) : (s.writeWord k v).word n = s.word n := by
  have hne : n.toNat ≠ k.toNat := fun e => h (BitVec.eq_of_toNat_eq e)
  simp [State.word_eq, Memory.read_write_other _ _ _ _ hne]

theorem addressInRange_iff (a : Word) : addressInRange a = true ↔ 0 ≤ a.toInt ∧ a.toInt ≤ 127 := by
  simp [addressInRange]

/-- An address is in range exactly when it is one of 0 to 127 as an unsigned number. -/
theorem addressInRange_iff_toNat (a : Word) : addressInRange a = true ↔ a.toNat ≤ 127 := by
  rw [addressInRange_iff, BitVec.toInt_eq_toNat_cond]
  have := a.isLt
  split <;> omega

/-- MemRead: the word in range, the range abort otherwise (R43). -/
theorem State.memRead_cases (a : Word) :
    (addressInRange a = true ∧ s.memRead a = some (s.word (wordIndex a))) ∨
      (addressInRange a = false ∧ s.memRead a = none) := by
  unfold State.memRead
  cases h : addressInRange a <;> simp

/-- MemWrite: the word written in range, the range abort otherwise (R44). -/
theorem State.memWrite_cases (a v : Word) :
    (addressInRange a = true ∧ s.memWrite a v = some (s.writeWord (wordIndex a) v)) ∨
      (addressInRange a = false ∧ s.memWrite a v = none) := by
  unfold State.memWrite
  cases h : addressInRange a <;> simp

/-- The word index of an address in range is the address divided by 4 (R41, R43). -/
theorem wordIndex_toNat (a : Word) (h : addressInRange a = true) : (wordIndex a).toNat = a.toNat / 4 := by
  rw [addressInRange_iff_toNat] at h
  simp only [wordIndex, BitVec.extractLsb'_toNat, Nat.shiftRight_eq_div_pow]
  omega

/-! ### Fetch -/

/-- The fetch index is the pc divided by 4, as unsigned numbers (R48). -/
theorem fetchIndex_eq (pc : Word) : fetchIndex pc = pc.toNat / 4 := by
  have := pc.isLt
  simp only [fetchIndex, BitVec.extractLsb'_toNat, Nat.shiftRight_eq_div_pow]
  omega

theorem State.fetch_eq : s.fetch = s.program[fetchIndex s.pc]? := rfl

theorem State.atEnd_iff : s.atEnd = true ↔ s.fetch = none := by
  simp [State.atEnd]

theorem placeItem_get (p : List Item) (n : Nat) (x : Item) : (placeItem p n x)[n]? = some x := by
  induction n generalizing p with
  | zero => cases p <;> rfl
  | succ n ih => cases p <;> simpa [placeItem] using ih _

theorem placeItem_get_other (p : List Item) (n k : Nat) (x : Item) (hk : k < p.length) (h : k ≠ n) :
    (placeItem p n x)[k]? = p[k]? := by
  induction n generalizing p k with
  | zero =>
    cases p with
    | nil => simp at hk
    | cons y p =>
      cases k with
      | zero => exact absurd rfl h
      | succ k => rfl
  | succ n ih =>
    cases p with
    | nil => simp at hk
    | cons y p =>
      cases k with
      | zero => rfl
      | succ k =>
        simpa [placeItem] using ih p k (by simpa using hk) (by simpa using h)

/-- A placed item is what the next fetch reads. -/
@[simp] theorem State.placeAtPc_fetch (x : Item) : (s.placeAtPc x).fetch = some x := by
  simp [State.fetch_eq, placeItem_get]

end Sys2Proof.Machine
end

