-- ==== Sys2Proof/Laws/Meanings.lean ====
section
/-! SUPPORT. The three shapes of an executed cycle, and everything exec can answer: which next states, which aborts. -/

namespace Sys2Proof.Machine

variable (s : State)

/-! ### The three shapes of an executed cycle -/

/-- A cycle that writes one register (R14, R24). -/
theorem writesReg_cycle (rd : Index) (v p : Word) :
    WritesReg s ((s.beginCycle.writeReg rd v).endCycle p) rd v p where
  result := by simp
  others := fun r h => by simp [State.writeReg_reg_other _ _ _ _ h]
  memory := fun k => by simp
  pc := by simp
  cycles := by simp
  touchedReg := by simp
  touchedMem := by simp
  program := by simp

/-- A cycle that writes one memory word (R25, R44). -/
theorem writesWord_cycle (k : Index) (v p : Word) :
    WritesWord s ((s.beginCycle.writeWord k v).endCycle p) k v p where
  result := by simp
  others := fun n h => by simp [Memory.read_write_other _ _ _ _ h]
  registers := fun r => by simp
  pc := by simp
  cycles := by simp
  touchedReg := by simp
  touchedMem := by simp
  program := by simp

/-- A cycle that writes neither (R94, R95, R101). -/
theorem writesNothing_cycle (p : Word) : WritesNothing s (s.beginCycle.endCycle p) p where
  registers := fun r => by simp
  memory := fun k => by simp
  pc := by simp
  cycles := by simp
  touchedReg := by simp
  touchedMem := by simp
  program := by simp

/-! ### The meanings -/

theorem aluRType_next (op : AluOp) (rd rs rt : Index) :
    aluRType op rd rs rt s =
      .next ((s.beginCycle.writeReg rd (alu op (s.reg rs) (s.reg rt))).endCycle (nextPc s.pc)) := rfl

/-- LW: the load in range, the abort otherwise (R131). -/
theorem execLw_cases (rt : Index) (imm : Imm) (rs : Index) :
    (addressInRange (effectiveAddress (s.reg rs) imm) = true ∧
      execLw rt imm rs s = .next ((s.beginCycle.writeReg rt
        (s.word (wordIndex (effectiveAddress (s.reg rs) imm)))).endCycle (nextPc s.pc))) ∨
    (addressInRange (effectiveAddress (s.reg rs) imm) = false ∧
      execLw rt imm rs s = .fault (.outOfRangeAddress s.pc opLw (effectiveAddress (s.reg rs) imm))) := by
  rcases s.memRead_cases (effectiveAddress (s.reg rs) imm) with ⟨hr, h⟩ | ⟨hr, h⟩
  · exact .inl ⟨hr, by simp [execLw, h]⟩
  · exact .inr ⟨hr, by simp [execLw, h, raiseAbort]⟩

/-- SW: the store in range, the abort otherwise (R132). -/
theorem execSw_cases (rt : Index) (imm : Imm) (rs : Index) :
    (addressInRange (effectiveAddress (s.reg rs) imm) = true ∧
      execSw rt imm rs s = .next ((s.beginCycle.writeWord
        (wordIndex (effectiveAddress (s.reg rs) imm)) (s.reg rt)).endCycle (nextPc s.pc))) ∨
    (addressInRange (effectiveAddress (s.reg rs) imm) = false ∧
      execSw rt imm rs s = .fault (.outOfRangeAddress s.pc opSw (effectiveAddress (s.reg rs) imm))) := by
  rcases s.beginCycle.memWrite_cases (effectiveAddress (s.reg rs) imm) (s.reg rt) with ⟨hr, h⟩ | ⟨hr, h⟩
  · exact .inl ⟨hr, by simp [execSw, h]⟩
  · exact .inr ⟨hr, by simp [execSw, h, raiseAbort]⟩

/-! ### Everything exec can answer -/

/-- The next states of exec: one register written, one word stored, or neither. -/
theorem exec_next {i : Instr} {s t : State} (h : exec i s = .next t) :
    (∃ rd v p, destinationOf i = some rd ∧ t = (s.beginCycle.writeReg rd v).endCycle p) ∨
    (∃ rt imm rs, i = .sw rt imm rs ∧ addressInRange (effectiveAddress (s.reg rs) imm) = true ∧
      t = (s.beginCycle.writeWord (wordIndex (effectiveAddress (s.reg rs) imm)) (s.reg rt)).endCycle (nextPc s.pc)) ∨
    (∃ p, destinationOf i = none ∧ t = s.beginCycle.endCycle p) := by
  cases i with
  | lw rt imm rs =>
    rcases execLw_cases s rt imm rs with ⟨-, e⟩ | ⟨-, e⟩
    · exact .inl ⟨rt, _, _, rfl, (Host.Outcome.next.inj (e.symm.trans h)).symm⟩
    · exact absurd (e.symm.trans h) (by simp)
  | sw rt imm rs =>
    rcases execSw_cases s rt imm rs with ⟨hr, e⟩ | ⟨-, e⟩
    · exact .inr (.inl ⟨rt, imm, rs, rfl, hr, (Host.Outcome.next.inj (e.symm.trans h)).symm⟩)
    · exact absurd (e.symm.trans h) (by simp)
  | beq rs rt imm => exact .inr (.inr ⟨_, rfl, (Host.Outcome.next.inj h).symm⟩)
  | j a => exact .inr (.inr ⟨_, rfl, (Host.Outcome.next.inj h).symm⟩)
  | jr rs => exact .inr (.inr ⟨_, rfl, (Host.Outcome.next.inj h).symm⟩)
  | jal a => exact .inl ⟨linkReg, _, _, rfl, (Host.Outcome.next.inj h).symm⟩
  | add rd rs rt => exact .inl ⟨rd, _, _, rfl, (Host.Outcome.next.inj h).symm⟩
  | sub rd rs rt => exact .inl ⟨rd, _, _, rfl, (Host.Outcome.next.inj h).symm⟩
  | and rd rs rt => exact .inl ⟨rd, _, _, rfl, (Host.Outcome.next.inj h).symm⟩
  | or rd rs rt => exact .inl ⟨rd, _, _, rfl, (Host.Outcome.next.inj h).symm⟩
  | slt rd rs rt => exact .inl ⟨rd, _, _, rfl, (Host.Outcome.next.inj h).symm⟩
  | nor rd rs rt => exact .inl ⟨rd, _, _, rfl, (Host.Outcome.next.inj h).symm⟩

/-- The aborts of exec: LW and SW out of range, and no other (R173). -/
theorem exec_fault {i : Instr} {s : State} {f : Fault} (h : exec i s = .fault f) :
    (∃ rt imm rs, i = .lw rt imm rs ∧ addressInRange (effectiveAddress (s.reg rs) imm) = false ∧
      f = .outOfRangeAddress s.pc opLw (effectiveAddress (s.reg rs) imm)) ∨
    (∃ rt imm rs, i = .sw rt imm rs ∧ addressInRange (effectiveAddress (s.reg rs) imm) = false ∧
      f = .outOfRangeAddress s.pc opSw (effectiveAddress (s.reg rs) imm)) := by
  cases i with
  | lw rt imm rs =>
    rcases execLw_cases s rt imm rs with ⟨-, e⟩ | ⟨hr, e⟩
    · exact absurd (e.symm.trans h) (by simp)
    · exact .inl ⟨rt, imm, rs, rfl, hr, (Host.Outcome.fault.inj (e.symm.trans h)).symm⟩
  | sw rt imm rs =>
    rcases execSw_cases s rt imm rs with ⟨-, e⟩ | ⟨hr, e⟩
    · exact absurd (e.symm.trans h) (by simp)
    · exact .inr ⟨rt, imm, rs, rfl, hr, (Host.Outcome.fault.inj (e.symm.trans h)).symm⟩
  | beq rs rt imm => exact absurd h (by simp [exec, execBeq])
  | j a => exact absurd h (by simp [exec, execJ])
  | jr rs => exact absurd h (by simp [exec, execJr])
  | jal a => exact absurd h (by simp [exec, execJal])
  | add rd rs rt => exact absurd h (by simp [exec, execAdd, aluRType])
  | sub rd rs rt => exact absurd h (by simp [exec, execSub, aluRType])
  | and rd rs rt => exact absurd h (by simp [exec, execAnd, aluRType])
  | or rd rs rt => exact absurd h (by simp [exec, execOr, aluRType])
  | slt rd rs rt => exact absurd h (by simp [exec, execSlt, aluRType])
  | nor rd rs rt => exact absurd h (by simp [exec, execNor, aluRType])

/-- No instruction is refused. -/
theorem exec_not_refused (i : Instr) (s : State) (r : Refusal) : exec i s ≠ .refused r := by
  intro h
  cases i with
  | lw rt imm rs => rcases execLw_cases s rt imm rs with ⟨-, e⟩ | ⟨-, e⟩ <;> exact absurd (e.symm.trans h) (by simp)
  | sw rt imm rs => rcases execSw_cases s rt imm rs with ⟨-, e⟩ | ⟨-, e⟩ <;> exact absurd (e.symm.trans h) (by simp)
  | beq rs rt imm => exact absurd h (by simp [exec, execBeq])
  | j a => exact absurd h (by simp [exec, execJ])
  | jr rs => exact absurd h (by simp [exec, execJr])
  | jal a => exact absurd h (by simp [exec, execJal])
  | add rd rs rt => exact absurd h (by simp [exec, execAdd, aluRType])
  | sub rd rs rt => exact absurd h (by simp [exec, execSub, aluRType])
  | and rd rs rt => exact absurd h (by simp [exec, execAnd, aluRType])
  | or rd rs rt => exact absurd h (by simp [exec, execOr, aluRType])
  | slt rd rs rt => exact absurd h (by simp [exec, execSlt, aluRType])
  | nor rd rs rt => exact absurd h (by simp [exec, execNor, aluRType])

end Sys2Proof.Machine
end

