-- ==== Sys2Proof/Laws/Step.lean ====
section
/-! SUPPORT. The inversion of the step: every answer it can give and where that answer comes from; and the state that
fetches a given word. -/

namespace Sys2Proof.Machine

theorem step_eq (s : State) : step s = cycleStep s := rfl

/-- A step that answers a next state found the end of the program, or executed the decoded instruction. -/
theorem step_next {s t : State} (h : step s = .next t) :
    (s.fetch = none ∧ t = s) ∨
    (∃ w i, s.fetch = some (.word w) ∧ decode w = .ok i ∧ exec i s = .next t) := by
  rw [step_eq] at h
  unfold cycleStep at h
  split at h
  · next hf => exact .inl ⟨hf, (Host.Outcome.next.inj h).symm⟩
  · next x hf =>
    unfold runItem at h
    split at h
    · next i hd =>
      cases x with
      | word w => exact .inr ⟨w, i, hf, hd, h⟩
      | malformed => simp [decodeItem] at hd
    · exact absurd h (by simp [raiseAbort])

/-- A step that aborts rejected the fetched item, or executed a decoded instruction that aborts. -/
theorem step_fault {s : State} {f : Fault} (h : step s = .fault f) :
    (∃ x r, s.fetch = some x ∧ decodeItem x = .error r ∧ f = faultOfReject s.pc r) ∨
    (∃ w i, s.fetch = some (.word w) ∧ decode w = .ok i ∧ exec i s = .fault f) := by
  rw [step_eq] at h
  unfold cycleStep at h
  split at h
  · exact absurd h (by simp)
  · next x hf =>
    unfold runItem at h
    split at h
    · next i hd =>
      cases x with
      | word w => exact .inr ⟨w, i, hf, hd, h⟩
      | malformed => simp [decodeItem] at hd
    · next r hd => exact .inl ⟨x, r, hf, hd, (Host.Outcome.fault.inj h).symm⟩

/-- The state made for a word fetches exactly it. -/
theorem withFetchWord_fetch (s : State) (nbits w : Nat) :
    (s.withFetchWord nbits w).fetch = some (.word (tableWord nbits w)) := by
  simp [State.withFetchWord]

end Sys2Proof.Machine
end

