-- ==== Sys2Proof/Laws/Interface.lean ====
section
/-! SUPPORT. The driving loop and the pre-load, one lemma per case, so that no later proof unfolds them. -/

namespace Sys2Proof.Machine

variable {s t : State}

/-- No step refuses. -/
theorem step_not_refused (s : State) (r : Refusal) : step s ≠ .refused r := by
  intro h
  rw [step_eq] at h
  unfold cycleStep runItem at h
  split at h
  · exact absurd h (by simp)
  · split at h
    · exact exec_not_refused _ _ _ h
    · exact absurd h (by simp [raiseAbort])

/-! ### The driving loop (R158) -/

theorem drive_zero (s : State) : drive 0 s = ⟨[], s, .outOfFuel⟩ := rfl

theorem drive_atEnd (n : Nat) (h : s.atEnd = true) : drive (n + 1) s = ⟨[], s, .endOfProgram⟩ := by
  simp [drive, h]

theorem drive_next (n : Nat) (h : s.atEnd = false) (hs : step s = .next t) :
    drive (n + 1) s = ⟨observe t :: (drive n t).trace, (drive n t).final, (drive n t).ended⟩ := by
  simp [drive, h, hs]

theorem drive_fault (n : Nat) {f : Fault} (h : s.atEnd = false) (hs : step s = .fault f) :
    drive (n + 1) s = ⟨[], s, .aborted f⟩ := by
  simp [drive, h, hs]

/-- The three ways one turn of the loop goes. -/
theorem drive_cases (n : Nat) (s : State) :
    (s.atEnd = true ∧ drive (n + 1) s = ⟨[], s, .endOfProgram⟩) ∨
    (∃ t, s.atEnd = false ∧ step s = .next t ∧
      drive (n + 1) s = ⟨observe t :: (drive n t).trace, (drive n t).final, (drive n t).ended⟩) ∨
    (∃ f, s.atEnd = false ∧ step s = .fault f ∧ drive (n + 1) s = ⟨[], s, .aborted f⟩) := by
  cases ha : s.atEnd with
  | true => exact .inl ⟨rfl, drive_atEnd n ha⟩
  | false =>
    cases hs : step s with
    | next t => exact .inr (.inl ⟨t, rfl, rfl, drive_next n ha hs⟩)
    | fault f => exact .inr (.inr ⟨f, rfl, rfl, drive_fault n ha hs⟩)
    | refused r => exact absurd hs (step_not_refused s r)

/-! ### The pre-load (R154, R155) -/

theorem preload_nil (s : State) : preload [] s = .ok s := rfl

theorem preload_cons_inRange (a : Assignment) (l : List Assignment) (s : State) (h : indexOfAssignment a < 32) :
    preload (a :: l) s = preload l (applyAssignment s a) := by
  simp [preload, assignmentInRange, h]

theorem preload_cons_outOfRange (a : Assignment) (l : List Assignment) (s : State) (h : 32 ≤ indexOfAssignment a) :
    preload (a :: l) s = .error (.outOfRangeIndex (indexOfAssignment a)) := by
  have hn : ¬indexOfAssignment a < 32 := by omega
  simp [preload, assignmentInRange, hn]

end Sys2Proof.Machine
end

