-- ==== Sys2Proof/Laws/PerInstr.lean ====
section
/-! SUPPORT. The family EncodesItsRow: an instruction's encoded word is one its own row of the opcode table selects
(spec/30_encoding.md R70: "a word `w` is the instruction when `w & mask = match`"). -/

namespace Sys2Proof.Laws.EncodesItsRow

/-- The encoded word has the row's match under the row's mask, and the row is the instruction's own. -/
def Statement (i : Instr) : Prop := encode i &&& maskOf i = matchOf i

theorem add (rd : Index) (rs : Index) (rt : Index) : Statement (.add rd rs rt) := by
  simp only [Statement, encode, maskOf, matchOf, opcode_funct_mask, opcodeOf_encodeR, functOf_encodeR]
  decide

theorem sub (rd : Index) (rs : Index) (rt : Index) : Statement (.sub rd rs rt) := by
  simp only [Statement, encode, maskOf, matchOf, opcode_funct_mask, opcodeOf_encodeR, functOf_encodeR]
  decide

theorem and (rd : Index) (rs : Index) (rt : Index) : Statement (.and rd rs rt) := by
  simp only [Statement, encode, maskOf, matchOf, opcode_funct_mask, opcodeOf_encodeR, functOf_encodeR]
  decide

theorem or (rd : Index) (rs : Index) (rt : Index) : Statement (.or rd rs rt) := by
  simp only [Statement, encode, maskOf, matchOf, opcode_funct_mask, opcodeOf_encodeR, functOf_encodeR]
  decide

theorem slt (rd : Index) (rs : Index) (rt : Index) : Statement (.slt rd rs rt) := by
  simp only [Statement, encode, maskOf, matchOf, opcode_funct_mask, opcodeOf_encodeR, functOf_encodeR]
  decide

theorem nor (rd : Index) (rs : Index) (rt : Index) : Statement (.nor rd rs rt) := by
  simp only [Statement, encode, maskOf, matchOf, opcode_funct_mask, opcodeOf_encodeR, functOf_encodeR]
  decide

theorem lw (rt : Index) (imm : Imm) (rs : Index) : Statement (.lw rt imm rs) := by
  simp only [Statement, encode, maskOf, matchOf, opcode_mask, opcodeOf_encodeI]
  decide

theorem sw (rt : Index) (imm : Imm) (rs : Index) : Statement (.sw rt imm rs) := by
  simp only [Statement, encode, maskOf, matchOf, opcode_mask, opcodeOf_encodeI]
  decide

theorem beq (rs : Index) (rt : Index) (imm : Imm) : Statement (.beq rs rt imm) := by
  simp only [Statement, encode, maskOf, matchOf, opcode_mask, opcodeOf_encodeI]
  decide

theorem j (a : JumpField) : Statement (.j a) := by
  simp only [Statement, encode, maskOf, matchOf, opcode_mask, opcodeOf_encodeJ]
  decide

theorem jal (a : JumpField) : Statement (.jal a) := by
  simp only [Statement, encode, maskOf, matchOf, opcode_mask, opcodeOf_encodeJ]
  decide

theorem jr (rs : Index) : Statement (.jr rs) := by
  simp only [Statement, encode, maskOf, matchOf, opcode_funct_mask, opcodeOf_encodeR, functOf_encodeR]
  decide

end Sys2Proof.Laws.EncodesItsRow
end

