-- ==== Sys2Proof/Tests/Slice0.lean ====
section
/-! SUPPORT. Tests of the model against numbers of spec/95_test_vectors.md and the rules' own examples, a smoke test of
every check, and for each obligation with hypotheses a concrete state and operands that meet them together. -/

namespace Sys2Proof.Tests
open Sys2Proof.Machine

/-! ### Helpers -/

/-- The reset state with a pc, some registers, some memory words and a program. -/
def st (pc : Word) (regs : List (Index × Word)) (mem : Memory) (program : List Item) : State :=
  { State.reset with
    pc := pc
    regs := regs.foldl (fun v p => v.set p.1.toNat p.2 (Config.index_lt_numRegs p.1)) State.reset.regs
    mem := mem
    program := program }

/-- What is read of the next state; none at an abort. -/
def after {α : Type} (o : Outcome) (f : State → α) : Option α :=
  match o with
  | .next t => some (f t)
  | .fault _ => none
  | .refused _ => none

/-- The abort; none at a next state. -/
def abortOf (o : Outcome) : Option Fault :=
  match o with
  | .next _ => none
  | .fault f => some f
  | .refused _ => none

/-! ### Smoke tests of the checks -/

-- R151: exactly 32 characters of '0' and '1'
theorem test_text_accepts : itemTextWellFormed (List.replicate 32 '1') = true := by decide
theorem test_text_refuses_short : itemTextWellFormed (List.replicate 31 '0') = false := by decide
theorem test_text_refuses_long : itemTextWellFormed (List.replicate 33 '0') = false := by decide
theorem test_text_refuses_other_char : itemTextWellFormed ('2' :: List.replicate 31 '0') = false := by decide
-- R153, D16: at most 2^30 items
theorem test_program_refuses_too_long (p : List Item) (h : p.length = 2 ^ 30 + 1) : programWellFormed p = false := by
  rw [programWellFormed, h]
  decide
-- section 4 of 95_test_vectors.md: index 32 refused, index 31 accepted
theorem test_preload_refuses_reg_32 : preload [.reg 32 1] State.reset = .error (.outOfRangeIndex 32) := by rfl
theorem test_preload_refuses_word_32 : preload [.word 32 1] State.reset = .error (.outOfRangeIndex 32) := by rfl
theorem test_preload_accepts_31 :
    (preload [.reg 31 5, .word 31 6, .word 31 7] State.reset).toOption.map (fun s => (s.reg 31, s.word 31, s.pc)) =
      some (5, 7, 0) := by decide
-- no operand value is ill formed (R62, R71)
theorem test_wellFormed : (Instr.lw 31 0xFFFF 0).wellFormed = true := by decide

/-! ### Decoding: words written out from the encodings (R63 to R70) -/

theorem test_decode_add : decode 0b000000_01001_01010_01011_00000_100000 = .ok (.add 11 9 10) := by decide
theorem test_decode_sub : decode 0b000000_01000_01001_01011_00000_100010 = .ok (.sub 11 8 9) := by decide
theorem test_decode_and : decode 0b000000_01000_01001_01100_00000_100100 = .ok (.and 12 8 9) := by decide
theorem test_decode_or : decode 0b000000_01000_01001_01101_00000_100101 = .ok (.or 13 8 9) := by decide
theorem test_decode_slt : decode 0b000000_01001_01000_01111_00000_101010 = .ok (.slt 15 9 8) := by decide
theorem test_decode_nor : decode 0b000000_00100_00100_00010_00000_100111 = .ok (.nor 2 4 4) := by decide
theorem test_decode_lw : decode 0b100011_00000_01001_0000000000000100 = .ok (.lw 9 4 0) := by decide
theorem test_decode_sw : decode 0b101011_00000_01000_0000000000011100 = .ok (.sw 8 28 0) := by decide
theorem test_decode_beq : decode 0b000100_01011_01100_1111111111111101 = .ok (.beq 11 12 0xFFFD) := by decide
theorem test_decode_j : decode 0b000010_00000000000000000000000100 = .ok (.j 4) := by decide
theorem test_decode_jal : decode 0b000011_00000000000000000000000010 = .ok (.jal 2) := by decide
theorem test_decode_jr : decode 0b000000_11111_00000_00000_00000_001000 = .ok (.jr 31) := by decide
-- 95_test_vectors.md 2.4 and 2.8: ignored bits
theorem test_decode_ignores_shamt : decode 0x012A5FE0 = .ok (.add 11 9 10) := by decide
theorem test_decode_jr_ignores_rt_rd : decode 0x012A5808 = .ok (.jr 9) := by decide
-- 95_test_vectors.md 2.1: fields of 0x116CFFFD
theorem test_fields : (opcodeOf 0x116CFFFD, rsOf 0x116CFFFD, rtOf 0x116CFFFD, rdOf 0x116CFFFD, shamtOf 0x116CFFFD,
    functOf 0x116CFFFD, immOf 0x116CFFFD, addressOf 0x116CFFFD) = (4, 11, 12, 31, 31, 61, 0xFFFD, 0x16CFFFD) := by decide
-- section 4: the refused neighbours
theorem test_reject_zero : decode 0x00000000 = .error (.unsupportedFunction 0 0) := by decide
theorem test_reject_addu : decode 0x01095021 = .error (.unsupportedFunction 0 33) := by decide
theorem test_reject_bne : decode 0x14000000 = .error (.unsupportedOpcode 5) := by decide
theorem test_accept_jr_zero : decode 0x00000008 = .ok (.jr 0) := by decide
-- R61: the text of 0x012A5820
theorem test_text_of_add : itemOfText "00000001001010100101100000100000".toList = .word 0x012A5820 := by decide
theorem test_encode_add : encode (.add 11 9 10) = 0x012A5820 := by decide
theorem test_encode_lw : encode (.lw 9 4 0) = 0x8C090004 := by decide
theorem test_table_word : decodeTableWord 32 0xAC08001C = some (.sw 8 28 0) := by decide

/-! ### One step of each instruction (95_test_vectors.md) -/

-- S8
theorem test_add_s8 : after (step (st 0 [(9, 5), (10, 7)] [] [.word 0x012A5820]))
    (fun t => (t.reg 11, t.pc, t.cycles, t.touchedReg)) = some (12, 4, 1, some ⟨11, 12⟩) := by decide
-- 2.4: source = destination, and the wrap
theorem test_add_same_wraps : after (exec (.add 8 8 8) (st 0 [(8, 0x40000000)] [] [])) (fun t => t.reg 8) =
    some 0x80000000 := by decide
-- 2.4 rows 5 and 7
theorem test_sub_borrow : after (exec (.sub 3 1 2) (st 0 [(1, 0), (2, 1)] [] [])) (fun t => t.reg 3) =
    some 0xFFFFFFFF := by decide
theorem test_sub_overflow : after (exec (.sub 3 1 2) (st 0 [(1, 0x7FFFFFFF), (2, 0xFFFFFFFF)] [] [])) (fun t => t.reg 3) =
    some 0x80000000 := by decide
-- 2.4 row 8
theorem test_and : after (exec (.and 3 1 2) (st 0 [(1, 0x0F0F0F0F), (2, 0x00FF00FF)] [] [])) (fun t => t.reg 3) =
    some 0x000F000F := by decide
theorem test_or : after (exec (.or 3 1 2) (st 0 [(1, 0x0F0F0F0F), (2, 0x00FF00FF)] [] [])) (fun t => t.reg 3) =
    some 0x0FFF0FFF := by decide
theorem test_nor : after (exec (.nor 3 1 2) (st 0 [(1, 0x0F0F0F0F), (2, 0x00FF00FF)] [] [])) (fun t => t.reg 3) =
    some 0xF000F000 := by decide
-- 2.4: signed, and exact where the difference overflows
theorem test_slt_signed : after (exec (.slt 3 1 2) (st 0 [(1, 0xFFFFFFFF), (2, 0)] [] [])) (fun t => t.reg 3) =
    some 1 := by decide
theorem test_slt_overflow : after (exec (.slt 3 1 2) (st 0 [(1, 0x7FFFFFFF), (2, 0x80000000)] [] [])) (fun t => t.reg 3) =
    some 0 := by decide
-- R12, D1: register 0 is written
theorem test_or_to_zero : after (exec (.or 0 9 10) (st 0 [(9, 5), (10, 7)] [] [])) (fun t => (t.reg 0, t.touchedReg)) =
    some (7, some ⟨0, 7⟩) := by decide
-- 2.5: LW of a misaligned address, and the abort
theorem test_lw_misaligned : after (exec (.lw 8 5 0) (st 0 [] [(1, 0xDEADBEEF)] []))
    (fun t => (t.reg 8, t.touchedReg, t.touchedMem, t.pc)) = some (0xDEADBEEF, some ⟨8, 0xDEADBEEF⟩, none, 4) := by
  decide
theorem test_lw_abort : abortOf (step (st 0 [(8, 7)] [] [.word 0x8C080080])) =
    some (.outOfRangeAddress 0 35 0x80) := by decide
-- S10, and 2.9
theorem test_sw_s10 : after (step (st 0 [(8, 99)] [] [.word 0xAC08001C]))
    (fun t => (t.word 7, t.touchedMem, t.touchedReg, t.pc, t.cycles)) = some (99, some ⟨7, 99⟩, none, 4, 1) := by decide
theorem test_sw_abort : abortOf (step (st 0 [] [] [.word 0xAC08FFFC])) =
    some (.outOfRangeAddress 0 43 0xFFFFFFFC) := by decide
-- 2.6: backwards below 0, and not taken
theorem test_beq_wraps : after (exec (.beq 1 2 0x8000) (st 0 [] [] [])) (fun t => (t.pc, t.cycles, t.touchedReg)) =
    some (0xFFFE0004, 1, none) := by decide
theorem test_beq_not_taken : after (exec (.beq 1 2 1) (st 6 [(1, 0x80000000), (2, 0x7FFFFFFF)] [] [])) (fun t => t.pc) =
    some 0x0A := by decide
-- 2.7: high bits from the pc itself, low bits cleared
theorem test_j_high_bits : after (exec (.j 0) (st 0x0FFFFFFC [] [] [])) (fun t => t.pc) = some 0 := by decide
theorem test_j_clears_low_bits : after (exec (.j 3) (st 6 [] [] [])) (fun t => t.pc) = some 0x0C := by decide
-- S11, and 2.7
theorem test_jal_s11 : after (step (st 0 [] [] [.word 0x0C000002])) (fun t => (t.reg 31, t.pc, t.cycles, t.touchedReg)) =
    some (4, 8, 1, some ⟨31, 4⟩) := by decide
theorem test_jal_wraps : after (exec (.jal 0x3FFFFFF) (st 0xFFFFFFFC [] [] [])) (fun t => (t.reg 31, t.pc)) =
    some (0, 0xFFFFFFFC) := by decide
-- 2.8
theorem test_jr_misaligned : after (exec (.jr 8) (st 0 [(8, 6)] [] [])) (fun t => (t.pc, t.cycles, t.touchedReg)) =
    some (6, 1, none) := by decide
theorem test_jr_writes_nothing : after (step (st 0 [(9, 8), (11, 3)] [] [.word 0x012A5808])) (fun t => (t.pc, t.reg 11)) =
    some (8, 3) := by decide
-- 2.9 and P7
theorem test_illegal_abort : abortOf (step (st 4 [] [] [.word 0x01084020, .word 0x0000000C])) =
    some (.unsupportedFunction 4 0 12) := by decide
theorem test_malformed_abort : abortOf (step (st 0 [] [] [.malformed])) = some (.malformedInstruction 0) := by decide
theorem test_end_of_program : after (step (st 4 [] [] [.word 0])) (fun t => (t.pc, t.cycles)) = some (4, 0) := by decide
-- P8: the misaligned pc 6 fetches item 1
theorem test_fetch_misaligned : (st 6 [] [] [.word 1, .word 2, .word 3]).fetch = some (.word 2) := by decide
-- 2.2 and 2.3
theorem test_control_sw : controlUnit 43 = some ⟨false, true, false, false, false, true, false, false, false, .iAdd⟩ := by
  decide
theorem test_alu_control_isub : aluControl .iSub 8 = some (.operation .sub) := by decide
theorem test_reg_name : regName 31 = "$ra" := by decide
-- the listings of 95_test_vectors.md S8, S10 and P4
theorem test_listing_add : listing (.add 11 9 10) = "add $t3, $t1, $t2" := by decide
theorem test_listing_sw : listing (.sw 8 28 0) = "sw $t0, 28($zero)" := by decide
theorem test_listing_beq : listing (.beq 11 12 0xFFFD) = "beq $t3, $t4, -3" := by decide
-- withFetchWord: the very next step runs the word
theorem test_with_fetch_word : after (step (State.reset.withFetchWord 32 0x0C000002)) (fun t => (t.reg 31, t.pc)) =
    some (4, 8) := by decide
-- S10 and R159: the driving loop stops at the end of the program
theorem test_drive_s10 : ((drive 3 (st 0 [(8, 99)] [] [.word 0xAC08001C])).ended,
    (drive 3 (st 0 [(8, 99)] [] [.word 0xAC08001C])).trace) =
    (.endOfProgram, [⟨1, 4, none, some ⟨7, 99⟩⟩]) := by decide

/-! ### Witnesses: the hypotheses of each obligation can be met together -/

theorem witness_DecodeOfEncode : (Instr.beq 31 0 0x8000).wellFormed = true := by decide
theorem witness_EncodeOfDecodeKeepsUsedBits : decode 0x012A5FE0 = .ok (.add 11 9 10) := by decide
theorem witness_OnlyOpcodeAndFunctSelect_mnemonic :
    opcodeOf 0x012A5820 = opcodeOf 0x01084020 ∧ (opcodeOf 0x012A5820 = 0 → functOf 0x012A5820 = functOf 0x01084020) := by
  decide
theorem witness_OnlyOpcodeAndFunctSelect_shamt :
    opcodeOf 0x012A5820 = 0 ∧ opcodeOf 0x012A5FE0 = 0 ∧ functOf 0x012A5820 = functOf 0x012A5FE0 ∧
    rsOf 0x012A5820 = rsOf 0x012A5FE0 ∧ rtOf 0x012A5820 = rtOf 0x012A5FE0 ∧ rdOf 0x012A5820 = rdOf 0x012A5FE0 := by decide
theorem witness_OnlyOpcodeAndFunctSelect_jr :
    opcodeOf 0x012A5808 = 0 ∧ opcodeOf 0x01200008 = 0 ∧ functOf 0x012A5808 = 8 ∧ functOf 0x01200008 = 8 ∧
    rsOf 0x012A5808 = rsOf 0x01200008 := by decide
theorem witness_TextSpellsTheWordMsbFirst : itemOfText (List.replicate 32 '1') = .word 0xFFFFFFFF := by decide
theorem witness_ImmediateIsSignExtended :
    (0x7FFF : Imm).toNat < 0x8000 ∧ 0x8000 ≤ (0x8000 : Imm).toNat ∧ (0 : Nat) < 16 ∧ (15 : Nat) < 16 ∧
    (controlUnit opLw).map (fun c => c.alusrc) = some true := by decide
theorem witness_ControlTableAsGiven : (1 : Opcode) ∉ supportedOpcodes ∧ (63 : Opcode) ∉ supportedOpcodes ∧
    (controlUnit opLw).map (fun c => c.jal) = some false := by decide
theorem witness_AluControlTable : (33 : Funct) ∉ supportedFuncts ∧ (63 : Funct) ∉ supportedFuncts := by decide
theorem witness_AluComputesExactly : (0 : Nat) < 32 ∧ (31 : Nat) < 32 := by decide
theorem witness_SltWritesTheComparison :
    ((st 0 [(1, 0x80000000), (2, 0x7FFFFFFF)] [] []).reg 1).toInt < ((st 0 [(1, 0x80000000), (2, 0x7FFFFFFF)] [] []).reg 2).toInt ∧
    ((st 0 [(1, 5)] [] []).reg 1).toInt ≤ ((st 0 [(1, 5)] [] []).reg 1).toInt := by decide
theorem witness_LwLoadsTheWord_lowest : (effectiveAddress ((st 0 [(1, 3)] [] []).reg 1) 0xFFFD).toInt = 0 := by decide
theorem witness_LwLoadsTheWord_highest : (effectiveAddress ((st 0 [(1, 100)] [] []).reg 1) 27).toInt = 127 := by decide
theorem witness_SwStoresTheWord_lowest : (effectiveAddress ((st 0 [] [] []).reg 0) 0).toInt = 0 := by decide
theorem witness_SwStoresTheWord_highest : (effectiveAddress ((st 0 [] [] []).reg 0) 127).toInt = 127 := by decide
theorem witness_LoadStoreAbortOutOfRange_above : 127 < (effectiveAddress ((st 0 [] [] []).reg 0) 128).toInt := by decide
theorem witness_LoadStoreAbortOutOfRange_below : (effectiveAddress ((st 0 [] [] []).reg 0) 0xFFFF).toInt < 0 := by decide
theorem witness_StoreThenLoadReadsTheStoredWord :
    (∃ t, exec (.sw 8 28 0) (st 0 [(8, 99)] [] []) = .next t) ∧
    (effectiveAddress ((st 0 [(8, 99)] [] []).reg 0) 28).toNat / 4 =
      (effectiveAddress ((st 0 [(8, 99)] [] []).reg 0) 31).toNat / 4 := ⟨⟨_, rfl⟩, by decide⟩
theorem witness_OnlyStoresMarkMemory_other :
    (∃ t, exec (.add 1 1 1) State.reset = .next t) ∧ ∀ rt imm rs, Instr.add 1 1 1 ≠ .sw rt imm rs :=
  ⟨⟨_, rfl⟩, fun _ _ _ => by simp⟩
theorem witness_OnlyStoresMarkMemory_sw :
    (∃ t, exec (.sw 8 124 0) State.reset = .next t) ∧ (effectiveAddress (State.reset.reg 0) 124).toNat % 4 = 0 :=
  ⟨⟨_, rfl⟩, by decide⟩
theorem witness_OnlyStoresMarkMemory_lw : ∃ t, exec (.lw 8 0 0) State.reset = .next t := ⟨_, rfl⟩
theorem witness_BeqBranchesOnEquality :
    State.reset.reg 1 = State.reset.reg 2 ∧ (st 0 [(1, 1)] [] []).reg 1 ≠ (st 0 [(1, 1)] [] []).reg 2 := by decide
theorem witness_JGoesToTheJumpTarget : (0x0BFFFFFF : Word) &&& 0xFC000000 = 0x08000000 := by decide
theorem witness_JrGoesToTheRegister : (0x03FFFFC8 : Word) &&& 0xFC00003F = 0x00000008 := by decide
theorem witness_MisalignedPcOnlyFromJr :
    ∃ t, step (st 0 [(8, 6)] [] [.word 0x01000008]) = .next t ∧
      (st 0 [(8, 6)] [] [.word 0x01000008]).pc.toNat % 4 = 0 ∧ t.pc.toNat % 4 ≠ 0 := ⟨_, rfl, by decide, by decide⟩
theorem witness_StepRunsTheDecodedInstruction :
    (st 0 [] [] [.word 0x08000004]).fetch = some (.word 0x08000004) ∧ decode 0x08000004 = .ok (.j 4) ∧
    (Instr.j 4).wellFormed = true := by decide
theorem witness_FetchReadsItemPcOverFour : (7 : Word).toNat / 4 = (st 4 [] [] []).pc.toNat / 4 := by decide
theorem witness_EndOfProgramChangesNothing :
    (st 4 [] [] [.word 8]).program.length ≤ (st 4 [] [] [.word 8]).pc.toNat / 4 := by decide
theorem witness_MalformedItemAborts :
    (st 5 [] [] [.word 8, .malformed]).program[(st 5 [] [] [.word 8, .malformed]).pc.toNat / 4]? = some .malformed := by
  decide
theorem witness_IllegalWordsAbort_opcode :
    (st 0 [] [] [.word 0xFFFFFFFF]).fetch = some (.word 0xFFFFFFFF) ∧ opcodeOf 0xFFFFFFFF ∉ supportedOpcodes ∧
    ∃ f, step (st 0 [] [] [.word 0xFFFFFFFF]) = .fault f ∧ kindOfFault f = .unsupportedOpcode :=
  ⟨by decide, by decide, _, rfl, rfl⟩
theorem witness_IllegalWordsAbort_funct :
    (st 0 [] [] [.word 0]).fetch = some (.word 0) ∧ opcodeOf 0 = 0 ∧ functOf 0 ∉ supportedFuncts ∧
    ∃ f, step (st 0 [] [] [.word 0]) = .fault f ∧ kindOfFault f = .unsupportedFunction :=
  ⟨by decide, by decide, by decide, _, rfl, rfl⟩
theorem witness_StepAbortsAreTheFourKinds_malformed : ∃ f, step (st 0 [] [] [.malformed]) = .fault f := ⟨_, rfl⟩
theorem witness_StepAbortsAreTheFourKinds_load : ∃ f, step (st 0 [] [] [.word 0x8C080080]) = .fault f := ⟨_, rfl⟩
theorem witness_StepAbortsAreTheFourKinds_store : ∃ f, step (st 0 [] [] [.word 0xAC08FFFC]) = .fault f := ⟨_, rfl⟩
theorem witness_SoftwareRulesPreventAborts :
    (st 0 [] [] [.word 0x8C09007F]).fetch = some (.word 0x8C09007F) ∧ decode 0x8C09007F = .ok (.lw 9 127 0) ∧
    (effectiveAddress (State.reset.reg 0) 127).toInt ≤ 127 := by decide
theorem witness_RegistersWrittenOnlyAtDestination :
    (∃ t, exec (.jal 2) State.reset = .next t) ∧ destinationOf (.jal 2) = some 31 ∧
    (∃ t, exec (.beq 1 2 3) State.reset = .next t) ∧ destinationOf (.beq 1 2 3) = none :=
  ⟨⟨_, rfl⟩, rfl, ⟨_, rfl⟩, rfl⟩
theorem witness_RegistersReadOnlyAtSources :
    ∀ r ∈ sourcesOf (.sw 8 28 9), State.reg { State.reset with regs := (st 0 [(1, 7)] [] []).regs } r = State.reset.reg r := by
  decide
theorem witness_OnlySwWritesOnlyLwReadsMemory :
    (∃ t, step (st 0 [(8, 99)] [] [.word 0xAC08001C]) = .next t ∧ t.mem ≠ (st 0 [(8, 99)] [] [.word 0xAC08001C]).mem) ∧
    ∀ rt imm rs, Instr.sw 8 28 0 ≠ .lw rt imm rs := ⟨⟨_, rfl, by decide⟩, fun _ _ _ => by simp⟩
theorem witness_NoStepWritesTheProgram : ∃ t, step (st 0 [(8, 99)] [] [.word 0xAC08001C]) = .next t := ⟨_, rfl⟩
theorem witness_CyclesCountExecutedInstructions :
    (∃ t, step (st 0 [] [] [.word 0x08000004]) = .next t) ∧ (∃ t, step State.reset = .next t) ∧
    (st 0 [] [] [.word 0x08000004]).atEnd = false ∧ State.reset.atEnd = true :=
  ⟨⟨_, rfl⟩, ⟨_, rfl⟩, by decide, by decide⟩
theorem witness_NeverBothRecords :
    ∃ t, step (st 0 [] [] [.word 0x0C000002]) = .next t ∧ (st 0 [] [] [.word 0x0C000002]).atEnd = false :=
  ⟨_, rfl, by decide⟩
theorem witness_EveryChangeIsReported :
    ∃ t, step (st 0 [(8, 99)] [] [.word 0xAC08001C]) = .next t ∧ (st 0 [(8, 99)] [] [.word 0xAC08001C]).atEnd = false :=
  ⟨_, rfl, by decide⟩
theorem witness_StepKeepsTheInvariant :
    ∃ t, (st 0 [(8, 99)] [(1, 5), (31, 6)] [.word 0xAC08001C]).Inv ∧
      step (st 0 [(8, 99)] [(1, 5), (31, 6)] [.word 0xAC08001C]) = .next t :=
  ⟨_, ⟨by decide, by decide, by decide, by decide, .inl rfl⟩, rfl⟩
theorem witness_PreloadRefusesIndicesOutOfRange :
    (∃ a ∈ [Assignment.reg 31 1, .word 32 1], 31 < indexOfAssignment a) ∧
    ∀ a ∈ [Assignment.reg 31 1, .word 31 1], indexOfAssignment a ≤ 31 := by decide
theorem witness_PreloadSetsWhatItNames : ∃ t, preload [.reg 0 1, .word 31 2, .reg 0 3] State.reset = .ok t := ⟨_, rfl⟩
theorem witness_BootMeetsTheInvariant :
    programWellFormed [.word 0x012A5820] = true ∧ ∃ s, boot [.reg 9 5, .reg 10 7] [.word 0x012A5820] = .ok s :=
  ⟨by decide, _, rfl⟩
theorem witness_EndedRunsAreOver_end : (drive 2 (st 0 [] [] [.word 0x08000004])).ended = .endOfProgram := by decide
theorem witness_EndedRunsAreOver_abort :
    (drive 2 (st 0 [] [] [.word 0x01084020, .word 0x0000000C])).ended = .aborted (.unsupportedFunction 4 0 12) := by decide
theorem witness_FuelOnlyBoundsTheRun : (drive 1 State.reset).ended ≠ .outOfFuel := by decide

end Sys2Proof.Tests
end

/-! The registers, the data memory and the touched records of an executed instruction (spec/10_state.md R14, R21, R25,
R31): what the destination and the kind of an instruction say of the state it leaves, and that only LW depends on the
memory it finds. -/

namespace Sys2Proof.Machine

variable {s t : State} {i : Instr}

/-! ### What an executed instruction writes -/

/-- An instruction with a destination writes it, and nothing else (R14). -/
theorem exec_writesReg_of_destination {d : Index} (h : exec i s = .next t) (hd : destinationOf i = some d) :
    ∃ v p, WritesReg s t d v p := by
  rcases exec_next h with ⟨rd, v, p, hrd, rfl⟩ | ⟨rt, imm, rs, rfl, -, -⟩ | ⟨p, hnone, -⟩
  · obtain rfl : rd = d := Option.some.inj (hrd.symm.trans hd)
    exact ⟨v, p, writesReg_cycle s rd v p⟩
  · cases hd
  · cases hnone.symm.trans hd

/-- An instruction without a destination changes no register and marks none (R14). -/
theorem exec_keeps_registers_of_no_destination (h : exec i s = .next t) (hd : destinationOf i = none) :
    (∀ r, t.reg r = s.reg r) ∧ t.touchedReg = none := by
  rcases exec_next h with ⟨rd, v, p, hrd, -⟩ | ⟨rt, imm, rs, -, -, rfl⟩ | ⟨p, -, rfl⟩
  · cases hrd.symm.trans hd
  · exact ⟨(writesWord_cycle s _ _ _).registers, (writesWord_cycle s _ _ _).touchedReg⟩
  · exact ⟨(writesNothing_cycle s p).registers, (writesNothing_cycle s p).touchedReg⟩

/-- Every instruction but SW leaves the data memory as it is and marks none of it (R21, R25). -/
theorem exec_keeps_memory_of_ne_sw (h : exec i s = .next t) (hi : ∀ rt imm rs, i ≠ .sw rt imm rs) :
    t.mem = s.mem ∧ t.touchedMem = none := by
  rcases exec_next h with ⟨rd, v, p, -, rfl⟩ | ⟨rt, imm, rs, hsw, -, -⟩ | ⟨p, -, rfl⟩
  · exact ⟨rfl, rfl⟩
  · exact absurd hsw (hi rt imm rs)
  · exact ⟨rfl, rfl⟩

/-- SW at an address in range stores (R132). -/
theorem execSw_of_inRange {rt rs : Index} {imm : Imm}
    (hr : addressInRange (effectiveAddress (s.reg rs) imm) = true) :
    execSw rt imm rs s = .next ((s.beginCycle.writeWord
      (wordIndex (effectiveAddress (s.reg rs) imm)) (s.reg rt)).endCycle (nextPc s.pc)) := by
  simpa [hr] using execSw_cases s rt imm rs

/-- SW at any other address aborts (R132, R173). -/
theorem execSw_of_outOfRange {rt rs : Index} {imm : Imm}
    (hr : addressInRange (effectiveAddress (s.reg rs) imm) = false) :
    execSw rt imm rs s = .fault (.outOfRangeAddress s.pc opSw (effectiveAddress (s.reg rs) imm)) := by
  simpa [hr] using execSw_cases s rt imm rs

/-- A SW that completes had its address in range, and writes `rt` to the word at that address (R44, R132). -/
theorem exec_sw_writesWord {rt rs : Index} {imm : Imm} (h : exec (.sw rt imm rs) s = .next t) :
    addressInRange (effectiveAddress (s.reg rs) imm) = true ∧
      WritesWord s t (wordIndex (effectiveAddress (s.reg rs) imm)) (s.reg rt) (nextPc s.pc) := by
  rcases execSw_cases s rt imm rs with ⟨hr, e⟩ | ⟨-, e⟩
  · obtain rfl := Host.Outcome.next.inj (h.symm.trans e)
    exact ⟨hr, writesWord_cycle s _ _ _⟩
  · cases h.symm.trans e

/-! ### The same instruction over two memories

The registers, the pc and every operand formed from them read the same in `s` and in `{ s with mem := m }`. -/

/-- A cycle that writes one register agrees over any two memories, but for the memory. -/
theorem agreeButMemory_writeReg_cycle (s : State) (m : Memory) (rd : Index) (v p : Word) :
    agreeButMemory (.next ((s.beginCycle.writeReg rd v).endCycle p))
      (.next ((State.beginCycle { s with mem := m }).writeReg rd v |>.endCycle p)) :=
  ⟨rfl, rfl, rfl, rfl, rfl, rfl⟩

/-- A cycle that stores one word agrees over any two memories, but for the memory. -/
theorem agreeButMemory_writeWord_cycle (s : State) (m : Memory) (k : Index) (v p : Word) :
    agreeButMemory (.next ((s.beginCycle.writeWord k v).endCycle p))
      (.next ((State.beginCycle { s with mem := m }).writeWord k v |>.endCycle p)) :=
  ⟨rfl, rfl, rfl, rfl, rfl, rfl⟩

/-- A cycle that writes neither agrees over any two memories, but for the memory. -/
theorem agreeButMemory_writesNothing_cycle (s : State) (m : Memory) (p : Word) :
    agreeButMemory (.next (s.beginCycle.endCycle p)) (.next ((State.beginCycle { s with mem := m }).endCycle p)) :=
  ⟨rfl, rfl, rfl, rfl, rfl, rfl⟩

/-- SW reads no memory word: its range check and what it stores come from the registers (R132). -/
theorem agreeButMemory_execSw (s : State) (m : Memory) (rt : Index) (imm : Imm) (rs : Index) :
    agreeButMemory (execSw rt imm rs s) (execSw rt imm rs { s with mem := m }) := by
  cases hr : addressInRange (effectiveAddress (s.reg rs) imm) with
  | true =>
    rw [execSw_of_inRange hr, execSw_of_inRange (s := { s with mem := m }) hr]
    exact agreeButMemory_writeWord_cycle s m _ _ _
  | false =>
    rw [execSw_of_outOfRange hr, execSw_of_outOfRange (s := { s with mem := m }) hr]
    exact rfl

/-- Every instruction but LW gives the same outcome, memory apart, whatever the data memory holds (R21). -/
theorem exec_agreeButMemory_of_ne_lw (s : State) (m : Memory) (hi : ∀ rt imm rs, i ≠ .lw rt imm rs) :
    agreeButMemory (exec i s) (exec i { s with mem := m }) := by
  cases i with
  | lw rt imm rs => exact absurd rfl (hi rt imm rs)
  | sw rt imm rs => exact agreeButMemory_execSw s m rt imm rs
  | add | sub | and | or | slt | nor | jal => exact agreeButMemory_writeReg_cycle s m _ _ _
  | beq | j | jr => exact agreeButMemory_writesNothing_cycle s m _

/-! ### The statements -/

/-- Settles O28: the frame of the instructions other than SW, the word a completed SW writes, and the register a LW
has as its destination. -/
theorem onlyStoresMarkMemory : Obligations.OnlyStoresMarkMemory := by
  refine ⟨fun i s t h hi => (exec_keeps_memory_of_ne_sw h hi).2, fun rt imm rs s t h haligned => ?_,
    fun rt imm rs s t h => ?_⟩
  · obtain ⟨hrange, hstore⟩ := exec_sw_writesWord h
    have hindex := wordIndex_toNat _ hrange
    exact ⟨_, by omega, hstore.touchedMem⟩
  · obtain ⟨v, p, hload⟩ := exec_writesReg_of_destination (d := rt) h rfl
    exact ⟨by rw [hload.result, hload.touchedReg], hload.touchedMem⟩

/-- Settles O42, by cases on whether the instruction has a destination. -/
theorem registersWrittenOnlyAtDestination : Obligations.RegistersWrittenOnlyAtDestination := by
  intro i s t h
  split
  · next d hd =>
    obtain ⟨v, p, hw⟩ := exec_writesReg_of_destination h hd
    exact ⟨hw.others, by rw [hw.result, hw.touchedReg]⟩
  · next hd => exact exec_keeps_registers_of_no_destination h hd

/-- Settles O44: a step whose instruction is no SW keeps the memory, and no instruction but LW depends on it. -/
theorem onlySwWritesOnlyLwReadsMemory : Obligations.OnlySwWritesOnlyLwReadsMemory := by
  refine ⟨fun s t h hchanged => ?_, fun i s m hi => exec_agreeButMemory_of_ne_lw s m hi⟩
  rcases step_next h with ⟨-, rfl⟩ | ⟨w, i, hfetch, hdecode, hexec⟩
  · exact absurd rfl hchanged
  · by_contra hno
    refine hchanged (exec_keeps_memory_of_ne_sw hexec fun rt imm rs hsw => hno ?_).1
    exact ⟨w, rt, imm, rs, hfetch, hsw ▸ hdecode⟩

/-- Settles O51: the reset state reads 0 at every register and every word (R31). -/
theorem resetClearsEverything : Obligations.ResetClearsEverything :=
  ⟨rfl, reset_reg, reset_word, rfl⟩

end Sys2Proof.Machine

/-! The program is fixed over a run (spec/20_memory.md R54): no instruction has a way to write it, so no step does, and
what a fetch reads depends on the program and the pc alone. -/

namespace Sys2Proof.Machine

variable {s t : State} {i : Instr}

/-- An executed instruction leaves the program as it is, whichever of its three shapes the cycle has. -/
theorem exec_keeps_program (h : exec i s = .next t) : t.program = s.program := by
  rcases exec_next h with ⟨rd, v, p, -, rfl⟩ | ⟨rt, imm, rs, -, -, rfl⟩ | ⟨p, -, rfl⟩
  · exact (writesReg_cycle s rd v p).program
  · exact (writesWord_cycle s _ _ _).program
  · exact (writesNothing_cycle s p).program

/-- A step leaves the program as it is, at the end of the program as well (R54, R81). -/
theorem step_keeps_program (h : step s = .next t) : t.program = s.program := by
  rcases step_next h with ⟨-, rfl⟩ | ⟨w, i, -, -, hexec⟩
  · rfl
  · exact exec_keeps_program hexec

/-- States with one program fetch the same item at every pc, whatever else they hold (R48). -/
theorem fetch_at_pc_of_same_program (h : t.program = s.program) (p : Word) :
    State.fetch { t with pc := p } = State.fetch { s with pc := p } := by
  simp only [State.fetch_eq, h]

/-- Settles O45: every step keeps the program, and the fetch reads nothing else but the pc. -/
theorem noStepWritesTheProgram : Obligations.NoStepWritesTheProgram :=
  fun _ _ h => ⟨step_keeps_program h, fetch_at_pc_of_same_program (step_keeps_program h)⟩

end Sys2Proof.Machine

/-! The decoder chooses by opcode and funct, and reads no ignored bit (spec/30_encoding.md R71). -/

namespace Sys2Proof

variable {v w : Word}

/-! ### What the decoder looks at -/

/-- A word of opcode 0 is decoded as an R-type word (R69). -/
theorem decode_of_opcode_zero (h : opcodeOf w = 0) : decode w = decodeRType w := if_pos h

/-- An R-type word's mnemonic, or its rejection, is chosen by its funct alone (R70, R73). -/
theorem decodeRType_mnemonic_of_funct_eq (hfn : functOf v = functOf w) :
    (decodeRType v).map mnemonicOf = (decodeRType w).map mnemonicOf := by
  unfold decodeRType
  rw [hfn]
  dsimp only
  split_ifs <;> rfl

/-- A word's mnemonic, or its rejection, is chosen by its opcode and, for opcode 0, its funct (R69, R72). -/
theorem decode_mnemonic_of_opcode_eq (hop : opcodeOf v = opcodeOf w)
    (hfn : opcodeOf v = 0 → functOf v = functOf w) :
    (decode v).map mnemonicOf = (decode w).map mnemonicOf := by
  by_cases hzero : opcodeOf v = 0
  · rw [decode_of_opcode_zero hzero, decode_of_opcode_zero (hop.symm.trans hzero)]
    exact decodeRType_mnemonic_of_funct_eq (hfn hzero)
  · have hrtype : opcodeOf w ≠ opRType := hop ▸ hzero
    simp only [decode, hop, if_neg hrtype]
    split_ifs <;> rfl

/-- An R-type word is decoded from its funct, rs, rt and rd: `shamt` is not read (R71). -/
theorem decodeRType_eq_of_fields_eq (hfn : functOf v = functOf w) (hrs : rsOf v = rsOf w) (hrt : rtOf v = rtOf w)
    (hrd : rdOf v = rdOf w) : decodeRType v = decodeRType w := by
  simp only [decodeRType, hfn, hrs, hrt, hrd]

/-- A word of funct 8 is JR of its `rs`, whatever its other fields hold (R70, R71). -/
theorem decodeRType_of_funct_jr (h : functOf w = fnJr) : decodeRType w = .ok (.jr (rsOf w)) := by
  simp only [decodeRType, h]
  rfl

/-! ### The statement -/

/-- Settles O4: by cases on whether the opcode is 0, and from the fields an R-type word is decoded from. -/
theorem onlyOpcodeAndFunctSelect : Obligations.OnlyOpcodeAndFunctSelect := by
  refine ⟨fun v w => decode_mnemonic_of_opcode_eq, fun v w hv hw hfn hrs hrt hrd => ?_,
    fun v w hv hw hfv hfw hrs => ?_⟩
  · rw [decode_of_opcode_zero hv, decode_of_opcode_zero hw]
    exact decodeRType_eq_of_fields_eq hfn hrs hrt hrd
  · rw [decode_of_opcode_zero hv, decode_of_opcode_zero hw, decodeRType_of_funct_jr hfv, decodeRType_of_funct_jr hfw,
      hrs]

end Sys2Proof

/-! The text of an item and its word, the most significant bit first (spec/30_encoding.md R61). -/

namespace Sys2Proof

/-! ### The number a text spells -/

/-- One more character is one more bit at the low end. -/
theorem binaryValue_concat (text : List Char) (c : Char) :
    binaryValue (text ++ [c]) = Nat.bit (c = '1') (binaryValue text) := by
  simp [binaryValue, Nat.bit_val, Bool.toNat, Bool.cond_decide]

/-- Bit `j` of the number is the character `j` places from the end. -/
theorem testBit_binaryValue (text : List Char) (j : Nat) :
    (binaryValue text).testBit j = decide (text.reverse[j]? = some '1') := by
  induction text using List.reverseRecOn generalizing j with
  | nil => simp [binaryValue]
  | append_singleton text c ih =>
    rw [binaryValue_concat, List.reverse_concat]
    cases j with
    | zero => simp
    | succ j => simp [Nat.testBit_bit_succ, ih]

/-- Character `k` of a text of 32 characters is bit `31-k` of the word it spells (R61). -/
theorem getLsbD_binaryValue {text : List Char} {k : Nat} (hlen : text.length = 32) (hk : k < 32) :
    (BitVec.ofNat 32 (binaryValue text)).getLsbD (31 - k) = decide (text[k]? = some '1') := by
  have hpos : text.length - 1 - (31 - k) = k := by omega
  have hbit : 31 - k < 32 := by omega
  rw [BitVec.getLsbD_ofNat, testBit_binaryValue, List.getElem?_reverse (by omega), hpos,
    decide_eq_true hbit, Bool.true_and]

/-! ### Texts and words -/

/-- A well-formed text has 32 characters, each of them '0' or '1' (R151). -/
theorem itemTextWellFormed_iff (text : List Char) :
    itemTextWellFormed text = true ↔ text.length = 32 ∧ ∀ c ∈ text, c = '0' ∨ c = '1' := by
  simp [itemTextWellFormed, Config.itemChars, isBinaryChar]

/-- An item is a word exactly when its text is well formed, and then the word its text spells. -/
theorem itemOfText_eq_word_iff {text : List Char} {w : Word} :
    itemOfText text = .word w ↔ itemTextWellFormed text = true ∧ BitVec.ofNat 32 (binaryValue text) = w := by
  unfold itemOfText
  split_ifs with h <;> simp [h]

/-- The character that spells a bit. -/
theorem textOfWord_getElem? (w : Word) {k : Nat} (hk : k < 32) :
    (textOfWord w)[k]? = some (if w.getLsbD (31 - k) then '1' else '0') := by
  simp [textOfWord, Config.itemChars, hk]

/-- The text of a word is well formed. -/
theorem textOfWord_wellFormed (w : Word) : itemTextWellFormed (textOfWord w) = true := by
  rw [itemTextWellFormed_iff]
  refine ⟨by simp [textOfWord, Config.itemChars], fun c hc => ?_⟩
  obtain ⟨k, -, rfl⟩ := List.mem_map.mp hc
  cases w.getLsbD (31 - k) <;> simp

/-- The word that the text of a word spells is that word. -/
theorem binaryValue_textOfWord (w : Word) : BitVec.ofNat 32 (binaryValue (textOfWord w)) = w := by
  have hlen := ((itemTextWellFormed_iff _).mp (textOfWord_wellFormed w)).1
  refine BitVec.eq_of_getLsbD_eq fun j hj => ?_
  obtain ⟨k, hk, rfl⟩ : ∃ k, k < 32 ∧ 31 - k = j := ⟨31 - j, by omega, by omega⟩
  rw [getLsbD_binaryValue hlen hk, textOfWord_getElem? w hk]
  cases w.getLsbD (31 - k) <;> simp

/-- A character of a well-formed text is the one that spells its bit of the word (R61). -/
theorem getElem?_of_itemOfText_eq_word {text : List Char} {w : Word} {k : Nat} (h : itemOfText text = .word w)
    (hk : k < 32) : text[k]? = some (if w.getLsbD (31 - k) then '1' else '0') := by
  obtain ⟨hwf, rfl⟩ := itemOfText_eq_word_iff.mp h
  obtain ⟨hlen, hbinary⟩ := (itemTextWellFormed_iff text).mp hwf
  have hget : text[k]? = some text[k] := List.getElem?_eq_getElem (by omega)
  rw [getLsbD_binaryValue hlen hk, hget]
  rcases hbinary text[k] (List.getElem_mem _) with hc | hc <;> simp [hc]

/-! ### The statement -/

/-- Settles O7: the characters of a text from the bits of the number it spells, and the text of a word from the same
correspondence. -/
theorem textSpellsTheWordMsbFirst : Obligations.TextSpellsTheWordMsbFirst := by
  refine ⟨fun text w h => ⟨?_, fun k hk => getElem?_of_itemOfText_eq_word h hk⟩, fun w => ?_, by decide⟩
  · exact ((itemTextWellFormed_iff text).mp (itemOfText_eq_word_iff.mp h).1).1
  · exact itemOfText_eq_word_iff.mpr ⟨textOfWord_wellFormed w, binaryValue_textOfWord w⟩

end Sys2Proof

/-! The tables of the control unit and the ALU control, and the count of executed instructions
(spec/40_datapath_control.md R86, R88, R99). -/

namespace Sys2Proof.Machine

variable {s t : State} {i : Instr}

/-! ### The two tables -/

/-- An opcode of no row of the control table has no signals (R86). -/
theorem controlUnit_of_not_supported {op : Opcode} (h : op ∉ supportedOpcodes) : controlUnit op = none := by
  have hne {row : Opcode} (hrow : row ∈ supportedOpcodes) : op ≠ row := (ne_of_mem_of_not_mem hrow h).symm
  unfold controlUnit
  split_ifs with hop hop hop hop hop hop
  case neg => rfl
  all_goals exact absurd hop (hne (by decide))

/-- A funct of no row of the R type's table selects nothing (R88). -/
theorem aluControl_rType_of_not_supported {fn : Funct} (h : fn ∉ supportedFuncts) : aluControl .rType fn = none := by
  have hne {row : Funct} (hrow : row ∈ supportedFuncts) : fn ≠ row := (ne_of_mem_of_not_mem hrow h).symm
  simp only [aluControl]
  split_ifs with hfn hfn hfn hfn hfn hfn hfn
  case neg => rfl
  all_goals exact absurd hfn (hne (by decide))

/-- Without `jal`, `regdest` chooses the write-back target (R86, R90). -/
theorem writeTarget_of_not_jal {c : ControlSignals} (w : Word) (h : c.jal = false) :
    writeTarget c w = if c.regdest then rdOf w else rtOf w := by
  simp [writeTarget, h]

/-! ### The cycle count -/

/-- An executed instruction counts one cycle, whichever of its three shapes the cycle has and wherever the pc goes
(R99). -/
theorem exec_counts_one_cycle (h : exec i s = .next t) : t.cycles = s.cycles + 1 := by
  rcases exec_next h with ⟨rd, v, p, -, rfl⟩ | ⟨rt, imm, rs, -, -, rfl⟩ | ⟨p, -, rfl⟩
  · exact (writesReg_cycle s rd v p).cycles
  · exact (writesWord_cycle s _ _ _).cycles
  · exact (writesNothing_cycle s p).cycles

/-- A step that completes counts one cycle where it executes an instruction, and none at the end of the program
(R81, R99). -/
theorem step_next_cycles (h : step s = .next t) : t.cycles = if s.atEnd then s.cycles else s.cycles + 1 := by
  rcases step_next h with ⟨hend, rfl⟩ | ⟨w, i, hfetch, -, hexec⟩
  · simp [State.atEnd, hend]
  · simpa [State.atEnd, hfetch] using exec_counts_one_cycle hexec

/-- Over a run, `cycles` grows by the number of observations, one for each executed instruction (R99, R156). -/
theorem drive_cycles (n : Nat) (s : State) : (drive n s).final.cycles = s.cycles + (drive n s).trace.length := by
  induction n generalizing s with
  | zero => rfl
  | succ n ih =>
    rcases drive_cases n s with ⟨-, hrun⟩ | ⟨t, hnotEnd, hstep, hrun⟩ | ⟨f, -, -, hrun⟩
    · simp [hrun]
    · have hcount : t.cycles = s.cycles + 1 := by simpa [hnotEnd] using step_next_cycles hstep
      rw [hrun, ih t, hcount, List.length_cons, Nat.add_right_comm, Nat.add_assoc]
    · simp [hrun]

/-! ### The statements -/

/-- Settles O46: a step's count from the three shapes of an executed cycle, a run's by induction on the fuel. -/
theorem cyclesCountExecutedInstructions : Obligations.CyclesCountExecutedInstructions :=
  ⟨fun _ _ h => step_next_cycles h, drive_cycles⟩

/-- Settles O11: the six rows by evaluation, the opcodes of no row, and what the stages do with the signals. -/
theorem controlTableAsGiven : Obligations.ControlTableAsGiven := by
  refine ⟨⟨_, rfl, ?rType⟩, ⟨_, rfl, ?lw⟩, ⟨_, rfl, ?sw⟩, ⟨_, rfl, ?beq⟩, ⟨_, rfl, ?j⟩, ⟨_, rfl, ?jal⟩,
    fun _ => controlUnit_of_not_supported, fun _ w => writeTarget_of_not_jal w, fun _ _ _ => rfl,
    fun _ _ _ _ _ => rfl, fun _ _ _ _ => rfl⟩
  case rType | lw | sw | beq | j | jal => decide

/-- Settles O13: I-add and I-sub read no funct, the R type's seven rows by evaluation, and the functs of no row. -/
theorem aluControlTable : Obligations.AluControlTable :=
  ⟨fun _ => ⟨rfl, rfl⟩, rfl, rfl, rfl, rfl, rfl, rfl, rfl, fun _ => aluControl_rType_of_not_supported⟩

end Sys2Proof.Machine

/-! The jumps J and JR (spec/43_control_transfer.md R136, R138): the words that decode to them, the two spellings of the
jump target, and a cycle that writes nothing. -/

namespace Sys2Proof

variable {w m v : Word}

/-! ### From the bits a mask keeps to the instruction -/

/-- Under a mask that keeps the whole opcode, a match fixes the opcode (R70). -/
theorem opcodeOf_of_and_eq (h : w &&& m = v) (hm : opcodeOf m = BitVec.allOnes 6) : opcodeOf w = opcodeOf v := by
  have hand : opcodeOf (w &&& m) = opcodeOf w &&& opcodeOf m := BitVec.extractLsb'_and
  rw [← h, hand, hm, BitVec.and_allOnes]

/-- Under a mask that keeps the whole funct, a match fixes the funct (R70). -/
theorem functOf_of_and_eq (h : w &&& m = v) (hm : functOf m = BitVec.allOnes 6) : functOf w = functOf v := by
  have hand : functOf (w &&& m) = functOf w &&& functOf m := BitVec.extractLsb'_and
  rw [← h, hand, hm, BitVec.and_allOnes]

/-- A word of opcode 2 is J of its `address` (R69). -/
theorem decode_of_opcode_j (h : opcodeOf w = opJ) : decode w = .ok (.j (addressOf w)) := by
  simp only [decode, h]
  rfl

/-- A word with J's match is J of its `address` (R70, R136). -/
theorem decode_of_match_j (h : w &&& 0xFC000000 = 0x08000000) : decode w = .ok (.j (addressOf w)) :=
  decode_of_opcode_j (opcodeOf_of_and_eq h (by decide))

/-- A word with JR's match is JR of its `rs`, whatever its `rt`, `rd` and `shamt` hold (R70, R71, R138). -/
theorem decode_of_match_jr (h : w &&& 0xFC00003F = 0x00000008) : decode w = .ok (.jr (rsOf w)) := by
  have hop : opcodeOf w = 0 := opcodeOf_of_and_eq h (by decide)
  have hfn : functOf w = fnJr := functOf_of_and_eq h (by decide)
  rw [decode_of_opcode_zero hop, decodeRType_of_funct_jr hfn]

end Sys2Proof

namespace Sys2Proof.Machine

variable (s : State)

/-! ### The jump target -/

/-- The concatenation of R68 is R136's shift and mask: bits 0 and 1 are 0, bits 2 to 27 the address, bits 28 to 31 the
pc's. -/
theorem jumpTarget_eq_or (pc : Word) (address : JumpField) :
    jumpTarget pc address = (address.zeroExtend 32 <<< 2) ||| (pc &&& 0xF0000000) := by
  have hmask : (0xF0000000 : Word) = BitVec.allOnes 32 <<< 28 := by decide
  refine BitVec.eq_of_getLsbD_eq fun k hk => ?_
  simp only [jumpTarget, hmask, BitVec.getLsbD_append, BitVec.getLsbD_or, BitVec.getLsbD_and,
    BitVec.getLsbD_shiftLeft, BitVec.getLsbD_allOnes, BitVec.getLsbD_setWidth, BitVec.getLsbD_extractLsb', hk]
  by_cases hlow : k < 2
  · simp [hlow, show k < 28 by omega]
  by_cases hmiddle : k < 28
  · simp [hlow, hmiddle, show k - 2 < 26 by omega, show k - 2 < 32 by omega]
  · have hnoAddress : address.getLsbD (k - 2) = false := BitVec.getLsbD_of_ge _ _ (by omega)
    have hbit : 28 + (k - 2 - 26) = k := by omega
    simp [hlow, hmiddle, hnoAddress, hbit, show ¬k - 2 < 26 by omega, show k - 2 - 26 < 4 by omega,
      show k - 28 < 32 by omega]

/-! ### The cycle of J and of JR -/

/-- J ends a cycle that writes nothing at the jump target of its own pc (R136). -/
theorem exec_j (address : JumpField) :
    exec (.j address) s = .next (s.beginCycle.endCycle (jumpTarget s.pc address)) := rfl

/-- JR ends a cycle that writes nothing at the register's 32 bits (R138). -/
theorem exec_jr (rs : Index) : exec (.jr rs) s = .next (s.beginCycle.endCycle (s.reg rs)) := rfl

/-- A cycle that writes nothing agrees over any two register files, but for the registers. -/
theorem agreeButRegisters_writesNothing_cycle (regs : Vector Word Config.numRegs) (p : Word) :
    agreeButRegisters (.next (s.beginCycle.endCycle p))
      (.next ((State.beginCycle { s with regs := regs }).endCycle p)) :=
  ⟨rfl, rfl, rfl, rfl, rfl, rfl⟩

/-! ### The statements -/

/-- Settles O30: J's match fixes the opcode, its control row is the table's, and its cycle writes nothing and takes its
pc from the old pc and the address alone. -/
theorem jGoesToTheJumpTarget : Obligations.JGoesToTheJumpTarget := by
  refine ⟨fun w => decode_of_match_j, ⟨_, rfl, by decide⟩, fun address s => ?_, fun address s regs => ?_⟩
  · exact ⟨_, exec_j s address, writesNothing_cycle s (jumpTarget s.pc address), jumpTarget_eq_or s.pc address⟩
  · rw [exec_j, exec_j]
    exact agreeButRegisters_writesNothing_cycle s regs _

/-- Settles O32: JR's match fixes opcode and funct, its control row is the R type's with the jump-register flag, and
its cycle writes nothing and takes its pc from the register. -/
theorem jrGoesToTheRegister : Obligations.JrGoesToTheRegister :=
  ⟨fun _ => decode_of_match_jr, rfl, rfl, fun rs s => ⟨_, exec_jr s rs, writesNothing_cycle s (s.reg rs)⟩⟩

end Sys2Proof.Machine

/-! The pre-load's check (spec/50_interfaces.md R155): which pre-loads are refused, and that a refused one boots no
state. -/

namespace Sys2Proof.Machine

variable {l : List Assignment}

/-- A pre-load with an index above 31 is refused at such an assignment, from every state (R155). -/
theorem preload_refused_of_outOfRange (h : ∃ a ∈ l, 31 < indexOfAssignment a) (s : State) :
    ∃ a ∈ l, 31 < indexOfAssignment a ∧ preload l s = .error (.outOfRangeIndex (indexOfAssignment a)) := by
  induction l generalizing s with
  | nil => simp at h
  | cons a l ih =>
    by_cases ha : 31 < indexOfAssignment a
    · exact ⟨a, List.mem_cons_self, ha, preload_cons_outOfRange a l s ha⟩
    · have hl : ∃ b ∈ l, 31 < indexOfAssignment b := by simpa [ha] using h
      obtain ⟨b, hb, hout, he⟩ := ih hl (applyAssignment s a)
      exact ⟨b, List.mem_cons_of_mem a hb, hout, (preload_cons_inRange a l s (by omega)).trans he⟩

/-- A pre-load whose indices are all at most 31 carries its assignments out in order (R154, R155). -/
theorem preload_eq_foldl_of_inRange (h : ∀ a ∈ l, indexOfAssignment a ≤ 31) (s : State) :
    preload l s = .ok (l.foldl applyAssignment s) := by
  induction l generalizing s with
  | nil => exact preload_nil s
  | cons a l ih =>
    obtain ⟨ha, hl⟩ := List.forall_mem_cons.1 h
    rw [preload_cons_inRange a l s (Nat.lt_succ_of_le ha), ih hl, List.foldl_cons]

/-- A pre-load refused at reset boots no state: the run does not start (R155). -/
theorem boot_refused_of_preload_refused {f : Fault} (p : List Item) (h : preload l State.reset = .error f) :
    boot l p = .error f := by
  rw [boot, h]
  rfl

/-- Settles O53: the refusal and the acceptance by induction on the assignments, and the boot from the refusal at
reset. -/
theorem preloadRefusesIndicesOutOfRange : Obligations.PreloadRefusesIndicesOutOfRange := by
  refine ⟨fun l p s h => ?_, fun l s h => ⟨_, preload_eq_foldl_of_inRange h s⟩⟩
  obtain ⟨a, -, -, hpre⟩ := preload_refused_of_outOfRange h s
  obtain ⟨b, -, -, hreset⟩ := preload_refused_of_outOfRange h State.reset
  exact ⟨_, _, hpre, rfl, boot_refused_of_preload_refused p hreset, rfl⟩

end Sys2Proof.Machine

/-! The illegal words (spec/60_exceptions.md R171, R172): the words the decoder rejects, that the step which fetches one
raises its abort, and that these two aborts have no other source. -/

namespace Sys2Proof.Machine

variable {s : State} {w : Word}

/-! ### The words the decoder rejects -/

/-- The opcodes of R72, under the names the decoder compares with. -/
theorem mem_supportedOpcodes_iff {op : Opcode} : op ∈ supportedOpcodes ↔
    op = opRType ∨ op = opJ ∨ op = opJal ∨ op = opBeq ∨ op = opLw ∨ op = opSw := by
  simp only [supportedOpcodes, List.mem_cons, List.not_mem_nil, or_false]
  rfl

/-- The functs of R73, under the names the decoder compares with. -/
theorem mem_supportedFuncts_iff {fn : Funct} : fn ∈ supportedFuncts ↔
    fn = fnJr ∨ fn = fnAdd ∨ fn = fnSub ∨ fn = fnAnd ∨ fn = fnOr ∨ fn = fnNor ∨ fn = fnSlt := by
  simp only [supportedFuncts, List.mem_cons, List.not_mem_nil, or_false]
  rfl

/-- The R-type words that are rejected (R73). -/
theorem decodeRType_error_iff {r : Reject} : decodeRType w = .error r ↔
    functOf w ∉ supportedFuncts ∧ r = .unsupportedFunction 0 (functOf w) := by
  rw [mem_supportedFuncts_iff]
  simp only [decodeRType]
  split_ifs with hadd hsub hand hor hslt hnor hjr
  case neg => simp [*, opRType, eq_comm (b := r)]
  all_goals simp [*]

/-- The words that are rejected (R72, R73). -/
theorem decode_error_iff {r : Reject} : decode w = .error r ↔
    (opcodeOf w ∉ supportedOpcodes ∧ r = .unsupportedOpcode (opcodeOf w)) ∨
    (opcodeOf w = 0 ∧ functOf w ∉ supportedFuncts ∧ r = .unsupportedFunction 0 (functOf w)) := by
  by_cases hzero : opcodeOf w = 0
  · have hmem : (0 : Opcode) ∈ supportedOpcodes := by decide
    simp only [decode_of_opcode_zero hzero, decodeRType_error_iff, hzero, hmem, not_true, false_and, false_or, true_and]
  · have hrtype : opcodeOf w ≠ opRType := hzero
    rw [mem_supportedOpcodes_iff]
    simp only [decode, hrtype, hzero, if_false, false_or, false_and, or_false]
    split_ifs with hlw hsw hbeq hj hjal
    case neg => simp [*, eq_comm (b := r)]
    all_goals simp [*]

/-! ### The aborts of the rejected words -/

/-- A fetched word that is rejected aborts the step with the rejection's abort (R171, R172). -/
theorem step_of_decode_error {r : Reject} (hfetch : s.fetch = some (.word w)) (hdecode : decode w = .error r) :
    step s = .fault (faultOfReject s.pc r) := by
  simp only [step_eq, cycleStep, hfetch, runItem, decodeItem, hdecode, raiseAbort]

/-- An abort of neither other kind is that of a fetched word that is rejected: a malformed item and an executed
instruction raise those two kinds (R170). -/
theorem decode_error_of_step_fault {f : Fault} (h : step s = .fault f)
    (hitem : kindOfFault f ≠ .malformedInstruction) (haddress : kindOfFault f ≠ .outOfRangeAddress) :
    ∃ w r, s.fetch = some (.word w) ∧ decode w = .error r ∧ f = faultOfReject s.pc r := by
  rcases step_fault h with ⟨x, r, hfetch, hreject, rfl⟩ | ⟨w, i, -, -, hexec⟩
  · cases x with
    | word w => exact ⟨w, r, hfetch, hreject, rfl⟩
    | malformed =>
      obtain rfl : Reject.malformedInstruction = r := Except.error.inj hreject
      exact absurd rfl hitem
  · rcases exec_fault hexec with ⟨rt, imm, rs, -, -, rfl⟩ | ⟨rt, imm, rs, -, -, rfl⟩ <;> exact absurd rfl haddress

/-! ### The statement -/

/-- Settles O38: the words the decoder rejects, the abort of the step that fetches one, and that the two kinds have no
other source. -/
theorem illegalWordsAbort : Obligations.IllegalWordsAbort := by
  refine ⟨fun s w hfetch hop => ?_, fun s w hfetch hzero hfn => ?_, fun s f h hkind => ?_, fun s f h hkind => ?_⟩
  · exact step_of_decode_error hfetch (decode_error_iff.2 (.inl ⟨hop, rfl⟩))
  · exact step_of_decode_error hfetch (decode_error_iff.2 (.inr ⟨hzero, hfn, rfl⟩))
  · obtain ⟨w, r, hfetch, hdecode, rfl⟩ := decode_error_of_step_fault h (by simp [hkind]) (by simp [hkind])
    rcases decode_error_iff.1 hdecode with ⟨hop, -⟩ | ⟨-, -, rfl⟩
    · exact ⟨w, hfetch, hop⟩
    · cases hkind
  · obtain ⟨w, r, hfetch, hdecode, rfl⟩ := decode_error_of_step_fault h (by simp [hkind]) (by simp [hkind])
    rcases decode_error_iff.1 hdecode with ⟨-, rfl⟩ | ⟨hzero, hfn, -⟩
    · cases hkind
    · exact ⟨w, hfetch, hzero, hfn⟩

end Sys2Proof.Machine

/-! The encoder and the decoder against each other and against the opcode table (spec/30_encoding.md sections 2 to 5):
a word is its fields, an encoded instruction decodes to itself, a decoded word keeps every bit that is read, and only a
text that is no word is malformed. -/

namespace Sys2Proof

variable {w : Word}

/-! ### What the decoder answers at each opcode and funct (R69, R70) -/

theorem decodeRType_of_funct_add (h : functOf w = fnAdd) : decodeRType w = .ok (.add (rdOf w) (rsOf w) (rtOf w)) := by
  simp only [decodeRType, h]
  rfl

theorem decodeRType_of_funct_sub (h : functOf w = fnSub) : decodeRType w = .ok (.sub (rdOf w) (rsOf w) (rtOf w)) := by
  simp only [decodeRType, h]
  rfl

theorem decodeRType_of_funct_and (h : functOf w = fnAnd) : decodeRType w = .ok (.and (rdOf w) (rsOf w) (rtOf w)) := by
  simp only [decodeRType, h]
  rfl

theorem decodeRType_of_funct_or (h : functOf w = fnOr) : decodeRType w = .ok (.or (rdOf w) (rsOf w) (rtOf w)) := by
  simp only [decodeRType, h]
  rfl

theorem decodeRType_of_funct_slt (h : functOf w = fnSlt) : decodeRType w = .ok (.slt (rdOf w) (rsOf w) (rtOf w)) := by
  simp only [decodeRType, h]
  rfl

theorem decodeRType_of_funct_nor (h : functOf w = fnNor) : decodeRType w = .ok (.nor (rdOf w) (rsOf w) (rtOf w)) := by
  simp only [decodeRType, h]
  rfl

theorem decode_of_opcode_lw (h : opcodeOf w = opLw) : decode w = .ok (.lw (rtOf w) (immOf w) (rsOf w)) := by
  simp only [decode, h]
  rfl

theorem decode_of_opcode_sw (h : opcodeOf w = opSw) : decode w = .ok (.sw (rtOf w) (immOf w) (rsOf w)) := by
  simp only [decode, h]
  rfl

theorem decode_of_opcode_beq (h : opcodeOf w = opBeq) : decode w = .ok (.beq (rsOf w) (rtOf w) (immOf w)) := by
  simp only [decode, h]
  rfl

theorem decode_of_opcode_jal (h : opcodeOf w = opJal) : decode w = .ok (.jal (addressOf w)) := by
  simp only [decode, h]
  rfl

/-- An R-format word is decoded as an R-type word. -/
theorem decode_encodeR (rs rt rd : Index) (fn : Funct) :
    decode (encodeR rs rt rd fn) = decodeRType (encodeR rs rt rd fn) :=
  decode_of_opcode_zero (opcodeOf_encodeR rs rt rd fn)

/-- Settles O2: by cases on the instruction, from the fields of its format and what the decoder answers there. -/
theorem decodeOfEncode : Obligations.DecodeOfEncode := by
  intro i _
  cases i with
  | add => simp [encode, decode_encodeR, decodeRType_of_funct_add]
  | sub => simp [encode, decode_encodeR, decodeRType_of_funct_sub]
  | and => simp [encode, decode_encodeR, decodeRType_of_funct_and]
  | or => simp [encode, decode_encodeR, decodeRType_of_funct_or]
  | slt => simp [encode, decode_encodeR, decodeRType_of_funct_slt]
  | nor => simp [encode, decode_encodeR, decodeRType_of_funct_nor]
  | jr => simp [encode, decode_encodeR, decodeRType_of_funct_jr]
  | lw => simp [encode, decode_of_opcode_lw]
  | sw => simp [encode, decode_of_opcode_sw]
  | beq => simp [encode, decode_of_opcode_beq]
  | j => simp [encode, decode_of_opcode_j]
  | jal => simp [encode, decode_of_opcode_jal]

/-! ### A word and its fields (R62 to R65) -/

/-- The six fields of the R-format make the word (R63). -/
theorem append_fields (w : Word) : opcodeOf w ++ rsOf w ++ rtOf w ++ rdOf w ++ shamtOf w ++ functOf w = w := by
  simp only [opcodeOf, rsOf, rtOf, rdOf, shamtOf, functOf, BitVec.extractLsb'_append_extractLsb'_eq_extractLsb']
  exact BitVec.extractLsb'_eq_self

theorem immOf_eq_append (w : Word) : immOf w = rdOf w ++ shamtOf w ++ functOf w := by
  simp only [immOf, rdOf, shamtOf, functOf, BitVec.extractLsb'_append_extractLsb'_eq_extractLsb']

theorem addressOf_eq_append (w : Word) : addressOf w = rsOf w ++ rtOf w ++ immOf w := by
  simp only [addressOf, rsOf, rtOf, immOf, BitVec.extractLsb'_append_extractLsb'_eq_extractLsb']

/-- The fields of a word in the I-format make the word (R64). -/
theorem encodeI_fields (w : Word) : encodeI (opcodeOf w) (rsOf w) (rtOf w) (immOf w) = w := by
  simp only [encodeI, opcodeOf, rsOf, rtOf, immOf, BitVec.extractLsb'_append_extractLsb'_eq_extractLsb']
  exact BitVec.extractLsb'_eq_self

/-- The fields of a word in the J-format make the word (R65). -/
theorem encodeJ_fields (w : Word) : encodeJ (opcodeOf w) (addressOf w) = w := by
  simp only [encodeJ, opcodeOf, addressOf, BitVec.extractLsb'_append_extractLsb'_eq_extractLsb']
  exact BitVec.extractLsb'_eq_self

/-- Settles O1: adjacent fields put together are the bits they were cut from. -/
theorem fieldsCutTheWord : Obligations.FieldsCutTheWord :=
  fun w => ⟨(append_fields w).symm, immOf_eq_append w, addressOf_eq_append w⟩

/-! ### The bits that are read (R71) -/

/-- A mask that is put together like a word is applied field by field. -/
theorem fields_and_mask (op a : Opcode) (rs b rt c rd d shamt e : Index) (fn f : Funct) :
    (op ++ rs ++ rt ++ rd ++ shamt ++ fn : BitVec (6 + 5 + 5 + 5 + 5 + 6)) &&& (a ++ b ++ c ++ d ++ e ++ f) =
      (op &&& a) ++ (rs &&& b) ++ (rt &&& c) ++ (rd &&& d) ++ (shamt &&& e) ++ (fn &&& f) := by
  simp only [BitVec.and_append]

/-- The R-format of a word's fields agrees with the word but for `shamt`. -/
theorem encodeR_and_usedBits (hop : opcodeOf w = opRType) :
    encodeR (rsOf w) (rtOf w) (rdOf w) (functOf w) &&& 0xFFFFF83F = w &&& 0xFFFFF83F := by
  have hmask : (0xFFFFF83F : Word) = BitVec.allOnes 6 ++ BitVec.allOnes 5 ++ BitVec.allOnes 5 ++ BitVec.allOnes 5 ++
    0#5 ++ BitVec.allOnes 6 := by decide
  conv_rhs => rw [← append_fields w, hop]
  rw [hmask, encodeR, fields_and_mask, fields_and_mask]
  simp only [BitVec.and_zero]

/-- JR's word agrees with a JR word but for `rt`, `rd` and `shamt`. -/
theorem encodeR_jr_and_usedBits (hop : opcodeOf w = opRType) :
    encodeR (rsOf w) 0 0 (functOf w) &&& 0xFFE0003F = w &&& 0xFFE0003F := by
  have hmask : (0xFFE0003F : Word) = BitVec.allOnes 6 ++ BitVec.allOnes 5 ++ 0#5 ++ 0#5 ++
    0#5 ++ BitVec.allOnes 6 := by decide
  conv_rhs => rw [← append_fields w, hop]
  rw [hmask, encodeR, fields_and_mask, fields_and_mask]
  simp only [BitVec.and_zero]

/-- Settles O3: by cases on what the word decodes to; the I-format and the J-format leave no bit out. -/
theorem encodeOfDecodeKeepsUsedBits : Obligations.EncodeOfDecodeKeepsUsedBits := by
  intro w i h
  rcases decode_ok h with ⟨hop, hr⟩ | ⟨hop, rfl⟩ | ⟨hop, rfl⟩ | ⟨hop, rfl⟩ | ⟨hop, rfl⟩ | ⟨hop, rfl⟩
  · rcases decodeRType_ok hr with ⟨hfn, rfl⟩ | ⟨hfn, rfl⟩ | ⟨hfn, rfl⟩ | ⟨hfn, rfl⟩ | ⟨hfn, rfl⟩ | ⟨hfn, rfl⟩ |
      ⟨hfn, rfl⟩ <;> rw [encode, ← hfn]
    case inr.inr.inr.inr.inr.inr => exact encodeR_jr_and_usedBits hop
    all_goals exact encodeR_and_usedBits hop
  · rw [encode, ← hop, encodeI_fields]
  · rw [encode, ← hop, encodeI_fields]
  · rw [encode, ← hop, encodeI_fields]
  · rw [encode, ← hop, encodeJ_fields]
  · rw [encode, ← hop, encodeJ_fields]

/-! ### The rows of the opcode table (R70) -/

/-- The mask and the match of the row with a mnemonic, from the table of R70. -/
def rowOfMnemonic (mnemonic : String) : Option (Word × Word) :=
  [("ADD", 0xFC00003F, 0x00000020), ("SUB", 0xFC00003F, 0x00000022), ("AND", 0xFC00003F, 0x00000024),
    ("OR", 0xFC00003F, 0x00000025), ("SLT", 0xFC00003F, 0x0000002A), ("NOR", 0xFC00003F, 0x00000027),
    ("LW", 0xFC000000, 0x8C000000), ("SW", 0xFC000000, 0xAC000000), ("BEQ", 0xFC000000, 0x10000000),
    ("J", 0xFC000000, 0x08000000), ("JAL", 0xFC000000, 0x0C000000), ("JR", 0xFC00003F, 0x00000008)].lookup mnemonic

theorem rowOfMnemonic_mnemonicOf (i : Instr) : rowOfMnemonic (mnemonicOf i) = some (maskOf i, matchOf i) := by
  cases i <;> rfl

/-- Instructions of one mnemonic are of one row. -/
theorem mask_match_of_mnemonic_eq {i row : Instr} (h : mnemonicOf i = mnemonicOf row) :
    maskOf i = maskOf row ∧ matchOf i = matchOf row := by
  have hrow := congrArg rowOfMnemonic h
  rw [rowOfMnemonic_mnemonicOf, rowOfMnemonic_mnemonicOf] at hrow
  exact Prod.mk.inj (Option.some.inj hrow)

/-- An instruction's encoding has its row's match (R70). -/
theorem encode_and_maskOf (i : Instr) : encode i &&& maskOf i = matchOf i := by
  cases i with
  | add => exact Laws.EncodesItsRow.add ..
  | sub => exact Laws.EncodesItsRow.sub ..
  | and => exact Laws.EncodesItsRow.and ..
  | or => exact Laws.EncodesItsRow.or ..
  | slt => exact Laws.EncodesItsRow.slt ..
  | nor => exact Laws.EncodesItsRow.nor ..
  | lw => exact Laws.EncodesItsRow.lw ..
  | sw => exact Laws.EncodesItsRow.sw ..
  | beq => exact Laws.EncodesItsRow.beq ..
  | j => exact Laws.EncodesItsRow.j ..
  | jal => exact Laws.EncodesItsRow.jal ..
  | jr => exact Laws.EncodesItsRow.jr ..

/-- The bits that select a row are bits that are read. -/
theorem usedBitsOf_and_maskOf (i : Instr) : usedBitsOf i &&& maskOf i = maskOf i := by
  cases i <;> (simp only [usedBitsOf, maskOf]; decide)

/-- A decoded word has the match of its instruction's row. -/
theorem and_maskOf_of_decode_ok {i : Instr} (h : decode w = .ok i) : w &&& maskOf i = matchOf i :=
  calc w &&& maskOf i
      = (w &&& usedBitsOf i) &&& maskOf i := by rw [BitVec.and_assoc, usedBitsOf_and_maskOf]
    _ = (encode i &&& usedBitsOf i) &&& maskOf i := by rw [encodeOfDecodeKeepsUsedBits w i h]
    _ = matchOf i := by rw [BitVec.and_assoc, usedBitsOf_and_maskOf, encode_and_maskOf]

/-- Every row's mask keeps the whole opcode. -/
theorem opcodeOf_maskOf (i : Instr) : opcodeOf (maskOf i) = BitVec.allOnes 6 := by
  cases i <;> (simp only [maskOf]; decide)

/-- The mask of a row of opcode 0 keeps the whole funct. -/
theorem functOf_maskOf {i : Instr} (h : opcodeOf (encode i) = 0) : functOf (maskOf i) = BitVec.allOnes 6 := by
  cases i with
  | add | sub | and | or | slt | nor | jr => simp only [maskOf]; decide
  | lw | sw | beq => exact absurd ((opcodeOf_encodeI ..).symm.trans h) (by decide)
  | j | jal => exact absurd ((opcodeOf_encodeJ ..).symm.trans h) (by decide)

/-- A word with a row's match has the opcode, and for opcode 0 the funct, of the row's own encoding, so it decodes to
the row's mnemonic. -/
theorem decode_mnemonic_of_match {row : Instr} (h : w &&& maskOf row = matchOf row) :
    (decode w).map mnemonicOf = .ok (mnemonicOf row) := by
  have hrow := encode_and_maskOf row
  have hop : opcodeOf w = opcodeOf (encode row) :=
    (opcodeOf_of_and_eq h (opcodeOf_maskOf row)).trans (opcodeOf_of_and_eq hrow (opcodeOf_maskOf row)).symm
  have hfn (hzero : opcodeOf w = 0) : functOf w = functOf (encode row) :=
    have hmask := functOf_maskOf (hop ▸ hzero)
    (functOf_of_and_eq h hmask).trans (functOf_of_and_eq hrow hmask).symm
  rw [decode_mnemonic_of_opcode_eq hop hfn, decodeOfEncode row (by cases row <;> rfl)]
  rfl

/-- Settles O5: a match fixes opcode and funct, which choose the mnemonic; a decoded word has its own row's match. -/
theorem decodeFollowsTheOpcodeTable : Obligations.DecodeFollowsTheOpcodeTable := by
  refine fun w row => ⟨fun h => ?_, fun ⟨i, hdecode, hname⟩ => ?_⟩
  · have hname := decode_mnemonic_of_match h
    cases hdecode : decode w with
    | ok i => exact ⟨i, rfl, Except.ok.inj (hdecode ▸ hname)⟩
    | error r => cases hdecode ▸ hname
  · obtain ⟨hmask, hmatch⟩ := mask_match_of_mnemonic_eq hname
    rw [← hmask, ← hmatch]
    exact and_maskOf_of_decode_ok hdecode

/-- Settles O6: the decoder evaluated at the eleven words. -/
theorem writtenWordsDecode : Obligations.WrittenWordsDecode := by
  unfold Obligations.WrittenWordsDecode
  decide

/-! ### The text of an item (R151) -/

/-- Settles O8: an item is a word or malformed, and a word exactly when its text is well formed. -/
theorem itemIsMalformedExactlyWhenItsTextIs : Obligations.ItemIsMalformedExactlyWhenItsTextIs := by
  intro text
  rw [← itemTextWellFormed_iff]
  unfold itemOfText
  split_ifs with h <;> simp [h]

end Sys2Proof

/-! What an executed instruction keeps of the machine (spec/10_state.md, spec/40_datapath_control.md section 10,
spec/50_interfaces.md section 4): the invariant, and the records that report every change. -/

namespace Sys2Proof.Machine

variable {s t : State} {i : Instr}

/-! ### The invariant over the three shapes of a cycle -/

/-- A cycle that writes one register keeps the invariant: its one record reports the register. -/
theorem inv_writeReg_cycle (h : s.Inv) (rd : Index) (v p : Word) :
    ((s.beginCycle.writeReg rd v).endCycle p).Inv where
  memory := h.memory
  program := h.program
  regRecord := by simp [State.touchedRegAgrees]
  memRecord := rfl
  oneRecord := .inr rfl

/-- A cycle that stores one word keeps the invariant: memory stays canonical, and its one record reports the word. -/
theorem inv_writeWord_cycle (h : s.Inv) (k : Index) (v p : Word) :
    ((s.beginCycle.writeWord k v).endCycle p).Inv where
  memory := Memory.wf_write s.mem k.toNat v h.memory k.isLt
  program := h.program
  regRecord := rfl
  memRecord := by simp [State.touchedMemAgrees]
  oneRecord := .inl rfl

/-- A state without a record meets the invariant by its memory and its program alone. -/
theorem inv_of_no_record (hmem : s.mem.wf) (hprogram : programWellFormed s.program = true)
    (hreg : s.touchedReg = none) (hword : s.touchedMem = none) : s.Inv where
  memory := hmem
  program := hprogram
  regRecord := by simp [State.touchedRegAgrees, hreg]
  memRecord := by simp [State.touchedMemAgrees, hword]
  oneRecord := .inl hreg

/-- Settles O49: the end of the program keeps the state, and each of the three shapes of a cycle the invariant. -/
theorem stepKeepsTheInvariant : Obligations.StepKeepsTheInvariant := by
  intro s t hinv h
  rcases step_next h with ⟨-, rfl⟩ | ⟨w, i, -, -, hexec⟩
  · exact hinv
  · rcases exec_next hexec with ⟨rd, v, p, -, rfl⟩ | ⟨rt, imm, rs, -, -, rfl⟩ | ⟨p, -, rfl⟩
    · exact inv_writeReg_cycle hinv rd v p
    · exact inv_writeWord_cycle hinv _ _ _
    · exact inv_of_no_record hinv.memory hinv.program rfl rfl

/-! ### The records of an executed instruction -/

/-- A step that is not at the end of the program and completes executed the decoded instruction. -/
theorem exec_of_step_next (h : step s = .next t) (hnotEnd : s.atEnd = false) :
    ∃ w i, s.fetch = some (.word w) ∧ decode w = .ok i ∧ exec i s = .next t := by
  rcases step_next h with ⟨hend, -⟩ | hexec
  · simp [State.atEnd, hend] at hnotEnd
  · exact hexec

/-- Settles O47, from the three shapes of a cycle. -/
theorem neverBothRecords : Obligations.NeverBothRecords := by
  intro s t h hnotEnd
  obtain ⟨w, i, -, -, hexec⟩ := exec_of_step_next h hnotEnd
  rcases exec_next hexec with ⟨rd, v, p, -, rfl⟩ | ⟨rt, imm, rs, -, -, rfl⟩ | ⟨p, -, rfl⟩
  · exact .inr rfl
  · exact .inl rfl
  · exact .inl rfl

/-- Settles O48: in each of the three shapes of a cycle the records carried out are the writes made. -/
theorem everyChangeIsReported : Obligations.EveryChangeIsReported := by
  intro s t h hnotEnd
  obtain ⟨w, i, -, -, hexec⟩ := exec_of_step_next h hnotEnd
  rcases exec_next hexec with ⟨rd, v, p, -, rfl⟩ | ⟨rt, imm, rs, -, -, rfl⟩ | ⟨p, -, rfl⟩
  · exact ⟨rfl, rfl, rfl, rfl⟩
  · exact ⟨rfl, rfl, rfl, rfl⟩
  · exact ⟨rfl, rfl, rfl, rfl⟩

end Sys2Proof.Machine

/-! The states a run can start in (spec/10_state.md section 10, spec/50_interfaces.md section 3): reset and the
pre-load. -/

namespace Sys2Proof.Machine

variable {s t : State} {l : List Assignment}

/-! ### Reset -/

/-- Settles O50: reset lists no word, holds no program and has no record. -/
theorem resetMeetsTheInvariant : Obligations.ResetMeetsTheInvariant :=
  inv_of_no_record Memory.wf_nil (by decide) rfl rfl

/-- Settles O52: the fields of reset, and the fetch of an empty program. -/
theorem resetHasNoRecordAndNoProgram : Obligations.ResetHasNoRecordAndNoProgram :=
  ⟨rfl, rfl, rfl, rfl⟩

/-! ### One assignment of a pre-load -/

/-- An assignment to a register sets it and no other. -/
theorem applyAssignment_reg_reg (i : Nat) (v : Word) (r : Index) :
    (applyAssignment s (.reg i v)).reg r = if i = r.toNat then v else s.reg r := by
  simp [applyAssignment, State.reg_eq, Vector.getElem_setIfInBounds]

/-- An assignment to a memory word sets it and no other. -/
theorem applyAssignment_word_read (k n : Nat) (v : Word) :
    (applyAssignment s (.word k v)).mem.read n = if k = n then v else s.mem.read n := by
  split_ifs with h
  · exact h ▸ Memory.read_write_same s.mem k v
  · exact Memory.read_write_other s.mem k n v (Ne.symm h)

/-- An assignment changes neither pc, cycles, records nor program (R154). -/
theorem applyAssignment_frame (s : State) (a : Assignment) :
    (applyAssignment s a).pc = s.pc ∧ (applyAssignment s a).cycles = s.cycles ∧
      (applyAssignment s a).touchedReg = s.touchedReg ∧ (applyAssignment s a).touchedMem = s.touchedMem ∧
      (applyAssignment s a).program = s.program := by
  cases a <;> exact ⟨rfl, rfl, rfl, rfl, rfl⟩

/-- An assignment in range keeps memory in canonical form. -/
theorem applyAssignment_wf (a : Assignment) (hrange : indexOfAssignment a < 32) (h : s.mem.wf) :
    (applyAssignment s a).mem.wf := by
  cases a with
  | reg i v => exact h
  | word k v => exact Memory.wf_write s.mem k v h hrange

/-! ### The whole pre-load -/

/-- A pre-load that is carried out has its first index in range, and goes on from that assignment. -/
theorem preload_cons_ok {a : Assignment} (h : preload (a :: l) s = .ok t) :
    indexOfAssignment a < 32 ∧ preload l (applyAssignment s a) = .ok t := by
  rcases lt_or_ge (indexOfAssignment a) 32 with hin | hout
  · exact ⟨hin, preload_cons_inRange a l s hin ▸ h⟩
  · cases (preload_cons_outOfRange a l s hout).symm.trans h

/-- A pre-load changes neither pc, cycles, records nor program (R154). -/
theorem preload_frame (h : preload l s = .ok t) : t.pc = s.pc ∧ t.cycles = s.cycles ∧
    t.touchedReg = s.touchedReg ∧ t.touchedMem = s.touchedMem ∧ t.program = s.program := by
  induction l generalizing s with
  | nil => cases h; exact ⟨rfl, rfl, rfl, rfl, rfl⟩
  | cons a l ih =>
    have hrest := ih (preload_cons_ok h).2
    simpa only [applyAssignment_frame] using hrest

/-- A pre-load leaves each register with the last value assigned to it (R154, D19). -/
theorem preload_reg (h : preload l s = .ok t) (r : Index) : t.reg r = (assignedReg l r.toNat).getD (s.reg r) := by
  induction l generalizing s with
  | nil => cases h; rfl
  | cons a l ih =>
    rw [ih (preload_cons_ok h).2]
    cases a with
    | word k v => rfl
    | reg i v =>
      rw [applyAssignment_reg_reg, assignedReg]
      cases assignedReg l r.toNat <;> split_ifs <;> rfl

/-- A pre-load leaves each memory word with the last value assigned to it (R154, D19). -/
theorem preload_read (h : preload l s = .ok t) (n : Nat) :
    t.mem.read n = (assignedWord l n).getD (s.mem.read n) := by
  induction l generalizing s with
  | nil => cases h; rfl
  | cons a l ih =>
    rw [ih (preload_cons_ok h).2]
    cases a with
    | reg i v => rfl
    | word k v =>
      rw [applyAssignment_word_read, assignedWord]
      cases assignedWord l n <;> split_ifs <;> rfl

/-- A pre-load keeps memory in canonical form. -/
theorem preload_wf (h : preload l s = .ok t) (hwf : s.mem.wf) : t.mem.wf := by
  induction l generalizing s with
  | nil => cases h; exact hwf
  | cons a l ih =>
    obtain ⟨hrange, hrest⟩ := preload_cons_ok h
    exact ih hrest (applyAssignment_wf a hrange hwf)

/-- A state that boots is a pre-load of reset with the program supplied (R33, R192). -/
theorem boot_ok {p : List Item} (h : boot l p = .ok s) : ∃ t, preload l State.reset = .ok t ∧ s = t.load p := by
  unfold boot at h
  cases hpre : preload l State.reset with
  | ok t => exact ⟨t, rfl, (Except.ok.inj (hpre ▸ h)).symm⟩
  | error f => cases hpre ▸ h

/-- Settles O54: registers, words and the rest, each by induction on the assignments. -/
theorem preloadSetsWhatItNames : Obligations.PreloadSetsWhatItNames :=
  fun _ _ _ h => ⟨preload_reg h, preload_read h, preload_frame h⟩

/-- Settles O55: the pre-load keeps reset's canonical memory, pc, cycles and clear records, and the program is
supplied after it. -/
theorem bootMeetsTheInvariant : Obligations.BootMeetsTheInvariant := by
  intro l p s hprogram h
  obtain ⟨t, hpre, rfl⟩ := boot_ok h
  obtain ⟨hpc, hcycles, hreg, hmem, -⟩ := preload_frame hpre
  have hwf : t.mem.wf := preload_wf hpre resetMeetsTheInvariant.memory
  exact ⟨inv_of_no_record hwf hprogram hreg hmem, hpc, hcycles, rfl⟩

end Sys2Proof.Machine

/-! Immediates and the ALU as integers and bits (spec/30_encoding.md section 3, spec/40_datapath_control.md section
6); the control signals the table leaves blank. -/

namespace Sys2Proof.Machine

/-! ### The sign-extended immediate (R66) -/

/-- Sign extension keeps the signed number. -/
@[simp] theorem sext32_toInt (imm : Imm) : (sext32 imm).toInt = imm.toInt :=
  BitVec.toInt_signExtend_of_le (by decide)

/-- The low half of a sign-extended immediate is the immediate. -/
theorem sext32_getLsbD_low (imm : Imm) {k : Nat} (hk : k < 16) : (sext32 imm).getLsbD k = imm.getLsbD k := by
  rw [sext32, BitVec.getLsbD_signExtend, if_pos hk, decide_eq_true (by omega), Bool.true_and]

/-- The high half of a sign-extended immediate repeats the immediate's sign bit. -/
theorem sext32_getLsbD_high (imm : Imm) {k : Nat} (hk : k < 16) :
    (sext32 imm).getLsbD (16 + k) = imm.getLsbD 15 := by
  rw [sext32, BitVec.getLsbD_signExtend, if_neg (by omega), decide_eq_true (by omega), Bool.true_and,
    BitVec.msb_eq_getLsbD_last]

/-- Settles O9: the value and the bits of the extension, and its three uses by their definitions. -/
theorem immediateIsSignExtended : Obligations.ImmediateIsSignExtended := by
  refine ⟨fun imm => ?_, fun imm k hk => ⟨sext32_getLsbD_low imm hk, sext32_getLsbD_high imm hk⟩, fun w k hk => ?_,
    fun _ _ => rfl, fun _ _ => rfl, fun c w s hc => if_pos hc, by decide, by decide, by decide⟩
  · rw [sext32_toInt, BitVec.toInt_eq_toNat_cond]
    omega
  · simp [immOf, hk]

/-! ### The branch offset (R67) -/

/-- Four times a signed 16-bit number lies far inside 32 bits. -/
theorem four_mul_imm_bounds (imm : Imm) : -131072 ≤ 4 * imm.toInt ∧ 4 * imm.toInt ≤ 131068 := by
  have hlo := BitVec.le_toInt imm
  have hhi := BitVec.toInt_lt (x := imm)
  omega

/-- A shift left by 2 is four times the signed number, modulo 2^32. -/
theorem branchOffset_eq_ofInt (imm : Imm) : branchOffset imm = BitVec.ofInt 32 (4 * imm.toInt) := by
  have hfour : BitVec.twoPow 32 2 = BitVec.ofInt 32 4 := by decide
  rw [branchOffset, BitVec.shiftLeft_eq_mul_twoPow, hfour, ← BitVec.ofInt_toInt (x := sext32 imm), sext32_toInt,
    ← BitVec.ofInt_mul, mul_comm]

/-- The offset is four times the signed immediate, with no wrap. -/
theorem branchOffset_toInt (imm : Imm) : (branchOffset imm).toInt = 4 * imm.toInt := by
  have hbounds := four_mul_imm_bounds imm
  rw [branchOffset_eq_ofInt, BitVec.toInt_ofInt]
  exact Int.bmod_eq_of_le (by omega) (by omega)

/-- The branch target, with the offset as a signed number. -/
theorem branchTarget_eq (pc : Word) (imm : Imm) :
    branchTarget pc imm = pc + 4 + BitVec.ofInt 32 (4 * imm.toInt) := by
  rw [← branchOffset_eq_ofInt]
  rfl

/-- Settles O10: the offset is the product because its bounds keep it from wrapping. -/
theorem branchOffsetIsFourTimesTheImmediate : Obligations.BranchOffsetIsFourTimesTheImmediate := by
  intro pc imm
  have hpc : BitVec.ofInt 32 pc.toNat = pc := by simp
  rw [branchOffset_toInt, branchTarget_eq, BitVec.ofInt_add, BitVec.ofInt_add, hpc]
  exact ⟨rfl, (four_mul_imm_bounds imm).1, (four_mul_imm_bounds imm).2, rfl⟩

/-! ### The ALU (R92, R93) -/

section Alu
variable (a b : Word)

theorem alu_add : alu .add a b = BitVec.ofInt 32 (a.toInt + b.toInt) := by
  rw [BitVec.ofInt_add, BitVec.ofInt_toInt, BitVec.ofInt_toInt]
  rfl

theorem alu_sub : alu .sub a b = BitVec.ofInt 32 (a.toInt - b.toInt) := by
  refine BitVec.eq_of_toInt_eq ?_
  rw [BitVec.toInt_ofInt]
  exact BitVec.toInt_sub

theorem alu_slt_of_lt (h : a.toInt < b.toInt) : alu .slt a b = 1 := if_pos h

theorem alu_slt_of_le (h : b.toInt ≤ a.toInt) : alu .slt a b = 0 := if_neg (not_lt.2 h)

theorem alu_and_getLsbD (k : Nat) : (alu .and a b).getLsbD k = (a.getLsbD k && b.getLsbD k) := BitVec.getLsbD_and

theorem alu_or_getLsbD (k : Nat) : (alu .or a b).getLsbD k = (a.getLsbD k || b.getLsbD k) := BitVec.getLsbD_or

theorem alu_nor_getLsbD {k : Nat} (hk : k < 32) : (alu .nor a b).getLsbD k = (!a.getLsbD k && !b.getLsbD k) := by
  simp [alu, hk]

theorem aluZero_iff : aluZero a = true ↔ a = 0 := beq_iff_eq

/-- The zero flag of a subtraction is equality, since subtraction modulo 2^32 has an inverse (R93). -/
theorem aluZero_sub_iff : aluZero (alu .sub a b) = true ↔ a = b := by
  rw [aluZero_iff]
  exact sub_eq_zero

end Alu

/-- Settles O14: each operation as an integer or bit by bit; the two results of SLT differ. -/
theorem aluComputesExactly : Obligations.AluComputesExactly := by
  refine fun a b => ⟨alu_add a b, alu_sub a b, ?_, ⟨fun h => ?_, alu_slt_of_lt a b⟩, ⟨fun h => ?_, alu_slt_of_le a b⟩,
    fun k hk => ⟨alu_and_getLsbD a b k, alu_or_getLsbD a b k, alu_nor_getLsbD a b hk⟩⟩
  · rw [BitVec.ofNat_add, BitVec.ofNat_toNat, BitVec.ofNat_toNat]
    simp [alu]
  · by_contra hle
    exact absurd ((alu_slt_of_le a b (not_lt.1 hle)).symm.trans h) (by decide)
  · by_contra hlt
    exact absurd ((alu_slt_of_lt a b (not_le.1 hlt)).symm.trans h) (by decide)

/-- Settles O15: a word is 0 when all its bits are, and a difference is 0 when its operands are equal. -/
theorem zeroFlagOfSubIsEquality : Obligations.ZeroFlagOfSubIsEquality := by
  refine ⟨fun v => ?_, aluZero_sub_iff⟩
  rw [aluZero_iff]
  refine ⟨fun h k _ => ?_, fun h => BitVec.eq_of_getLsbD_eq fun k hk => ?_⟩
  · rw [h]
    exact BitVec.getLsbD_zero
  · rw [h k hk]
    exact BitVec.getLsbD_zero.symm

/-! ### The blank control signals (R87) -/

/-- Settles O12: the control table evaluated at the four opcodes. -/
theorem dontCareSignalsAreZero : Obligations.DontCareSignalsAreZero :=
  ⟨⟨_, rfl, rfl, rfl⟩, ⟨_, rfl, rfl, rfl⟩, ⟨_, rfl, rfl, rfl, rfl, rfl⟩, ⟨_, rfl, rfl, rfl, rfl, rfl⟩⟩

end Sys2Proof.Machine

/-! What each instruction does (spec/41_alu_rtype.md, spec/42_load_store.md, spec/43_control_transfer.md): the register
or the word it writes, the pc it goes on at, its abort, and that it reads no register but its sources. -/

namespace Sys2Proof.Machine

variable {s t : State}

/-! ### The R-type arithmetic and logic instructions -/

/-- An R-type ALU instruction completes and writes the ALU's result to `rd` (R120). -/
theorem aluRType_writesReg (op : AluOp) (rd rs rt : Index) (s : State) :
    ∃ t, aluRType op rd rs rt s = .next t ∧ WritesReg s t rd (alu op (s.reg rs) (s.reg rt)) (s.pc + 4) :=
  ⟨_, aluRType_next s op rd rs rt, writesReg_cycle s rd _ _⟩

/-- Settles O17: the shape of an R-type cycle, and ADD's result on integers. -/
theorem addWritesTheSum : Obligations.AddWritesTheSum := by
  intro rd rs rt s
  rw [← alu_add]
  exact aluRType_writesReg .add rd rs rt s

/-- Settles O18: the shape of an R-type cycle, and SUB's result on integers. -/
theorem subWritesTheDifference : Obligations.SubWritesTheDifference := by
  intro rd rs rt s
  rw [← alu_sub]
  exact aluRType_writesReg .sub rd rs rt s

/-- Settles O19: the shape of an R-type cycle, and AND's result bit by bit. -/
theorem andWritesTheConjunction : Obligations.AndWritesTheConjunction := by
  intro rd rs rt s
  obtain ⟨t, hnext, hwrites⟩ := aluRType_writesReg .and rd rs rt s
  exact ⟨t, _, hnext, hwrites, fun k _ => by rw [alu_and_getLsbD, Bool.and_eq_true]⟩

/-- Settles O20: the shape of an R-type cycle, and OR's result bit by bit. -/
theorem orWritesTheDisjunction : Obligations.OrWritesTheDisjunction := by
  intro rd rs rt s
  obtain ⟨t, hnext, hwrites⟩ := aluRType_writesReg .or rd rs rt s
  exact ⟨t, _, hnext, hwrites, fun k _ => by rw [alu_or_getLsbD, Bool.or_eq_true]⟩

/-- Settles O21: the shape of an R-type cycle, and NOR's result bit by bit. -/
theorem norWritesTheComplement : Obligations.NorWritesTheComplement := by
  intro rd rs rt s
  obtain ⟨t, hnext, hwrites⟩ := aluRType_writesReg .nor rd rs rt s
  exact ⟨t, _, hnext, hwrites, fun k hk => by
    rw [alu_nor_getLsbD _ _ hk, Bool.and_eq_true, Bool.not_eq_true', Bool.not_eq_true']⟩

/-- Settles O22: the shape of an R-type cycle, and SLT's two results. -/
theorem sltWritesTheComparison : Obligations.SltWritesTheComparison := by
  intro rd rs rt s
  obtain ⟨t, hnext, hwrites⟩ := aluRType_writesReg .slt rd rs rt s
  exact ⟨t, _, hnext, hwrites, alu_slt_of_lt _ _, alu_slt_of_le _ _⟩

/-- Settles O23: two R-type cycles, the second of which reads twice what the first wrote to register 0. -/
theorem registerZeroIsOrdinary : Obligations.RegisterZeroIsOrdinary := by
  intro rd rs rt s
  obtain ⟨t, hfirst, hzero⟩ := aluRType_writesReg .or 0 rs rt s
  obtain ⟨u, hsecond, hcopy⟩ := aluRType_writesReg .or rd 0 0 t
  refine ⟨t, u, hfirst, hzero.result, hzero.touchedReg, hsecond, ?_⟩
  rw [hcopy.result, hzero.result]
  exact BitVec.or_self

/-! ### LW and SW -/

/-- The range check refuses exactly the addresses below 0 and above 127 (R45). -/
theorem addressInRange_eq_false_iff (a : Word) : addressInRange a = false ↔ a.toInt < 0 ∨ 127 < a.toInt := by
  rw [← Bool.not_eq_true, addressInRange_iff]
  omega

/-- LW at an address in range loads the word that holds it (R131). -/
theorem execLw_of_inRange {rt rs : Index} {imm : Imm}
    (hr : addressInRange (effectiveAddress (s.reg rs) imm) = true) :
    execLw rt imm rs s = .next ((s.beginCycle.writeReg rt
      (s.mem.read ((effectiveAddress (s.reg rs) imm).toNat / 4))).endCycle (nextPc s.pc)) := by
  rw [← wordIndex_toNat _ hr, ← State.word_eq]
  simpa [hr] using execLw_cases s rt imm rs

/-- LW at any other address aborts (R131, R173). -/
theorem execLw_of_outOfRange {rt rs : Index} {imm : Imm}
    (hr : addressInRange (effectiveAddress (s.reg rs) imm) = false) :
    execLw rt imm rs s = .fault (.outOfRangeAddress s.pc opLw (effectiveAddress (s.reg rs) imm)) := by
  simpa [hr] using execLw_cases s rt imm rs

/-- Settles O24: the load in range is a cycle that writes one register. -/
theorem lwLoadsTheWord : Obligations.LwLoadsTheWord := by
  intro rt imm rs s hlo hhi
  exact ⟨_, execLw_of_inRange ((addressInRange_iff _).2 ⟨hlo, hhi⟩), writesReg_cycle s rt _ _⟩

/-- Settles O25: the store in range is a cycle that writes one memory word. -/
theorem swStoresTheWord : Obligations.SwStoresTheWord := by
  intro rt imm rs s hlo hhi
  have hrange := (addressInRange_iff _).2 ⟨hlo, hhi⟩
  exact ⟨wordIndex_toNat _ hrange, _, execSw_of_inRange hrange, writesWord_cycle s _ _ _⟩

/-- Settles O26: the aborts of LW and SW where the range check refuses. -/
theorem loadStoreAbortOutOfRange : Obligations.LoadStoreAbortOutOfRange := by
  intro rt imm rs s hout
  have hrange := (addressInRange_eq_false_iff _).2 hout
  exact ⟨execLw_of_outOfRange hrange, execSw_of_outOfRange hrange⟩

/-- Settles O27: the load's address is in range because it shares its word with the store's, and that word holds what
was stored. -/
theorem storeThenLoadReadsTheStoredWord : Obligations.StoreThenLoadReadsTheStoredWord := by
  intro rt rs rt' rs' imm imm' s t hstore hsame
  obtain ⟨hrange, hwrites⟩ := exec_sw_writesWord hstore
  have hindex := wordIndex_toNat _ hrange
  rw [hsame, ← hwrites.registers rs'] at hindex
  have hrange' : addressInRange (effectiveAddress (t.reg rs') imm') = true := by
    rw [addressInRange_iff_toNat] at hrange ⊢
    rw [hwrites.registers rs']
    omega
  refine ⟨_, execLw_of_inRange hrange', ?_⟩
  rw [(writesReg_cycle t rt' _ _).result, ← hindex, hwrites.result]

/-! ### BEQ and JAL -/

/-- BEQ ends a cycle that writes nothing, at the branch target when the subtraction's zero flag is set (R135). -/
theorem exec_beq (rs rt : Index) (imm : Imm) (s : State) : exec (.beq rs rt imm) s =
    .next (s.beginCycle.endCycle
      (if aluZero (alu .sub (s.reg rs) (s.reg rt)) then branchTarget s.pc imm else nextPc s.pc)) := rfl

/-- JAL ends a cycle that writes `pc + 4` to register 31, at the jump target of its own pc (R137). -/
theorem exec_jal (address : JumpField) (s : State) : exec (.jal address) s =
    .next ((s.beginCycle.writeReg linkReg (nextPc s.pc)).endCycle (jumpTarget s.pc address)) := rfl

/-- Settles O29: the zero flag of the subtraction is equality, and chooses the pc of a cycle that writes nothing. -/
theorem beqBranchesOnEquality : Obligations.BeqBranchesOnEquality := by
  refine fun rs rt imm s => ⟨_, exec_beq rs rt imm s, fun heq => ?_, fun hne => ?_⟩
  · rw [if_pos ((aluZero_sub_iff _ _).2 heq), branchTarget_eq]
    exact writesNothing_cycle s _
  · rw [if_neg (mt (aluZero_sub_iff _ _).1 hne)]
    exact writesNothing_cycle s _

/-- Settles O31: JAL's cycle writes one register, and its target is the shift and mask of R136. -/
theorem jalLinksAndJumps : Obligations.JalLinksAndJumps := by
  intro address s
  rw [← jumpTarget_eq_or]
  exact ⟨_, exec_jal address s, writesReg_cycle s linkReg _ _⟩

/-! ### The same instruction over two register files

The memory, the pc and the program read the same in `s` and in `{ s with regs := regs }`; the registers do at the
sources, where they are read. -/

section Registers
variable (s : State) (regs : Vector Word Config.numRegs)

/-- A cycle that writes one register agrees over any two register files, but for the registers. -/
theorem agreeButRegisters_writeReg_cycle (rd : Index) (v p : Word) :
    agreeButRegisters (.next ((s.beginCycle.writeReg rd v).endCycle p))
      (.next ((State.beginCycle { s with regs := regs }).writeReg rd v |>.endCycle p)) :=
  ⟨rfl, rfl, rfl, rfl, rfl, rfl⟩

/-- A cycle that stores one word agrees over any two register files, but for the registers. -/
theorem agreeButRegisters_writeWord_cycle (k : Index) (v p : Word) :
    agreeButRegisters (.next ((s.beginCycle.writeWord k v).endCycle p))
      (.next ((State.beginCycle { s with regs := regs }).writeWord k v |>.endCycle p)) :=
  ⟨rfl, rfl, rfl, rfl, rfl, rfl⟩

/-- An R-type ALU instruction reads `rs` and `rt` (R120). -/
theorem agreeButRegisters_aluRType (op : AluOp) (rd : Index) {rs rt : Index}
    (h : ∀ r ∈ [rs, rt], State.reg { s with regs := regs } r = s.reg r) :
    agreeButRegisters (aluRType op rd rs rt s) (aluRType op rd rs rt { s with regs := regs }) := by
  rw [aluRType_next, aluRType_next, h rs (by simp), h rt (by simp)]
  exact agreeButRegisters_writeReg_cycle s regs rd _ _

/-- LW reads `rs` (R131). -/
theorem agreeButRegisters_execLw (rt : Index) (imm : Imm) {rs : Index}
    (h : ∀ r ∈ [rs], State.reg { s with regs := regs } r = s.reg r) :
    agreeButRegisters (execLw rt imm rs s) (execLw rt imm rs { s with regs := regs }) := by
  have hrs := h rs (by simp)
  cases hr : addressInRange (effectiveAddress (s.reg rs) imm) with
  | true =>
    rw [execLw_of_inRange hr, execLw_of_inRange (s := { s with regs := regs }) (hrs ▸ hr), hrs]
    exact agreeButRegisters_writeReg_cycle s regs rt _ _
  | false =>
    rw [execLw_of_outOfRange hr, execLw_of_outOfRange (s := { s with regs := regs }) (hrs ▸ hr), hrs]
    exact rfl

/-- SW reads `rs` and `rt` (R132). -/
theorem agreeButRegisters_execSw (imm : Imm) {rs rt : Index}
    (h : ∀ r ∈ [rs, rt], State.reg { s with regs := regs } r = s.reg r) :
    agreeButRegisters (execSw rt imm rs s) (execSw rt imm rs { s with regs := regs }) := by
  have hrs := h rs (by simp)
  cases hr : addressInRange (effectiveAddress (s.reg rs) imm) with
  | true =>
    rw [execSw_of_inRange hr, execSw_of_inRange (s := { s with regs := regs }) (hrs ▸ hr), hrs, h rt (by simp)]
    exact agreeButRegisters_writeWord_cycle s regs _ _ _
  | false =>
    rw [execSw_of_outOfRange hr, execSw_of_outOfRange (s := { s with regs := regs }) (hrs ▸ hr), hrs]
    exact rfl

/-- BEQ reads `rs` and `rt` (R135). -/
theorem agreeButRegisters_execBeq (imm : Imm) {rs rt : Index}
    (h : ∀ r ∈ [rs, rt], State.reg { s with regs := regs } r = s.reg r) :
    agreeButRegisters (exec (.beq rs rt imm) s) (exec (.beq rs rt imm) { s with regs := regs }) := by
  rw [exec_beq, exec_beq, h rs (by simp), h rt (by simp)]
  exact agreeButRegisters_writesNothing_cycle s regs _

/-- JR reads `rs` (R138). -/
theorem agreeButRegisters_execJr {rs : Index} (h : ∀ r ∈ [rs], State.reg { s with regs := regs } r = s.reg r) :
    agreeButRegisters (exec (.jr rs) s) (exec (.jr rs) { s with regs := regs }) := by
  rw [exec_jr, exec_jr, h rs (by simp)]
  exact agreeButRegisters_writesNothing_cycle s regs _

end Registers

/-- Settles O43, by cases on the instruction: each result, address and pc is made of the sources' values. -/
theorem registersReadOnlyAtSources : Obligations.RegistersReadOnlyAtSources := by
  intro i s regs h
  cases i with
  | add | sub | and | or | slt | nor => exact agreeButRegisters_aluRType s regs _ _ h
  | lw => exact agreeButRegisters_execLw s regs _ _ h
  | sw => exact agreeButRegisters_execSw s regs _ h
  | beq => exact agreeButRegisters_execBeq s regs _ h
  | jr => exact agreeButRegisters_execJr s regs h
  | j => exact agreeButRegisters_writesNothing_cycle s regs _
  | jal => exact agreeButRegisters_writeReg_cycle s regs linkReg _ _

end Sys2Proof.Machine

/-! The step (spec/40_datapath_control.md sections 1 to 9, spec/60_exceptions.md, spec/70_reset_and_hazards.md section
3): what it answers at each fetched item, its aborts and what prevents them, the pc it leaves, and the step of the
datapath. -/

namespace Sys2Proof.Machine

variable {s t : State} {w : Word} {i : Instr}

/-! ### What a step answers at each fetched item -/

/-- At the end of the program a step changes nothing (R81). -/
theorem step_of_fetch_none (hfetch : s.fetch = none) : step s = .next s := by
  simp only [step_eq, cycleStep, hfetch]

/-- A fetched word that decodes is executed (R80). -/
theorem step_of_decode_ok (hfetch : s.fetch = some (.word w)) (hdecode : decode w = .ok i) : step s = exec i s := by
  simp only [step_eq, cycleStep, hfetch, runItem, decodeItem, hdecode]

/-- A fetched malformed item aborts (R175). -/
theorem step_of_malformed (hfetch : s.fetch = some .malformed) : step s = .fault (.malformedInstruction s.pc) := by
  simp only [step_eq, cycleStep, hfetch, runItem, decodeItem, raiseAbort, faultOfReject]

/-- Settles O34: the step at a fetched word that decodes. -/
theorem stepRunsTheDecodedInstruction : Obligations.StepRunsTheDecodedInstruction :=
  fun _ _ _ hfetch hdecode _ => step_of_decode_ok hfetch hdecode

/-- The fetch reads item `pc / 4` (R48). -/
theorem fetch_eq_getElem? (s : State) : s.fetch = s.program[s.pc.toNat / 4]? := by
  rw [State.fetch_eq, fetchIndex_eq]

/-- The program ends at a pc exactly when it is no longer than `pc / 4` (R48). -/
theorem atEnd_iff_length_le (s : State) : s.atEnd = true ↔ s.program.length ≤ s.pc.toNat / 4 := by
  rw [State.atEnd_iff, fetch_eq_getElem?, List.getElem?_eq_none_iff]

/-- Settles O35: the fetch as a list access at `pc / 4`. -/
theorem fetchReadsItemPcOverFour : Obligations.FetchReadsItemPcOverFour := by
  refine fun s => ⟨fetch_eq_getElem? s, atEnd_iff_length_le s, fun p hp => ?_⟩
  rw [fetch_eq_getElem?, fetch_eq_getElem?, hp]

/-- Settles O36: the step and one turn of the loop at the end of the program. -/
theorem endOfProgramChangesNothing : Obligations.EndOfProgramChangesNothing := by
  intro s n hlength
  have hend := (atEnd_iff_length_le s).2 hlength
  exact ⟨step_of_fetch_none (s.atEnd_iff.1 hend), drive_atEnd n hend⟩

/-- Settles O37: the item at `pc / 4` is the one fetched. -/
theorem malformedItemAborts : Obligations.MalformedItemAborts :=
  fun s hitem => step_of_malformed ((fetch_eq_getElem? s).trans hitem)

/-- Settles O40: by cases on the end of the program and on the answer, which is never a refusal. -/
theorem stepHasThreeOutcomes : Obligations.StepHasThreeOutcomes := by
  intro s
  cases hend : s.atEnd with
  | true => exact .inl ⟨rfl, step_of_fetch_none (s.atEnd_iff.1 hend)⟩
  | false =>
    cases hstep : step s with
    | next t => exact .inr (.inl ⟨rfl, t, rfl, by simpa [hend] using step_next_cycles hstep⟩)
    | fault f => exact .inr (.inr ⟨rfl, f, rfl⟩)
    | refused r => exact absurd hstep (step_not_refused s r)

/-! ### The aborts of a step -/

/-- A word that decodes to LW has its opcode, and the instruction has the word's fields (R69). -/
theorem fields_of_decode_lw {rt rs : Index} {imm : Imm} (h : decode w = .ok (.lw rt imm rs)) :
    opcodeOf w = opLw ∧ rtOf w = rt ∧ immOf w = imm ∧ rsOf w = rs := by
  have hmatch : w &&& 0xFC000000 = 0x8C000000 := and_maskOf_of_decode_ok h
  have hop : opcodeOf w = opLw := opcodeOf_of_and_eq hmatch (by decide)
  have hinstr := Except.ok.inj ((decode_of_opcode_lw hop).symm.trans h)
  exact ⟨hop, Instr.lw.inj hinstr⟩

/-- A word that decodes to SW has its opcode, and the instruction has the word's fields (R69). -/
theorem fields_of_decode_sw {rt rs : Index} {imm : Imm} (h : decode w = .ok (.sw rt imm rs)) :
    opcodeOf w = opSw ∧ rtOf w = rt ∧ immOf w = imm ∧ rsOf w = rs := by
  have hmatch : w &&& 0xFC000000 = 0xAC000000 := and_maskOf_of_decode_ok h
  have hop : opcodeOf w = opSw := opcodeOf_of_and_eq hmatch (by decide)
  have hinstr := Except.ok.inj ((decode_of_opcode_sw hop).symm.trans h)
  exact ⟨hop, Instr.sw.inj hinstr⟩

/-- Settles O39: the rejections of the decoder, and the aborts of LW and SW with the fields of their words. -/
theorem stepAbortsAreTheFourKinds : Obligations.StepAbortsAreTheFourKinds := by
  intro s f h
  rcases step_fault h with ⟨x, r, hfetch, hreject, rfl⟩ | ⟨w, i, hfetch, hdecode, hexec⟩
  · cases x with
    | malformed =>
      obtain rfl : Reject.malformedInstruction = r := Except.error.inj hreject
      exact ⟨rfl, hfetch⟩
    | word w =>
      rcases decode_error_iff.1 hreject with ⟨hop, rfl⟩ | ⟨hzero, hfn, rfl⟩
      · exact ⟨rfl, w, hfetch, rfl, hop⟩
      · exact ⟨rfl, rfl, w, hfetch, hzero, rfl, hfn⟩
  · rcases exec_fault hexec with ⟨rt, imm, rs, rfl, hrange, rfl⟩ | ⟨rt, imm, rs, rfl, hrange, rfl⟩
    · obtain ⟨hop, -, rfl, rfl⟩ := fields_of_decode_lw hdecode
      exact ⟨rfl, .inl rfl, (addressInRange_eq_false_iff _).1 hrange, w, hfetch, hop.symm, rfl⟩
    · obtain ⟨hop, -, rfl, rfl⟩ := fields_of_decode_sw hdecode
      exact ⟨rfl, .inr rfl, (addressInRange_eq_false_iff _).1 hrange, w, hfetch, hop.symm, rfl⟩

/-- An instruction completes exactly when it is no LW or SW whose address is out of range (R173). -/
theorem exec_completes_iff : (∃ t, exec i s = .next t) ↔ ∀ rt imm rs, i = .lw rt imm rs ∨ i = .sw rt imm rs →
    addressInRange (effectiveAddress (s.reg rs) imm) = true := by
  constructor
  · rintro ⟨t, h⟩ rt imm rs (rfl | rfl)
    · rcases execLw_cases s rt imm rs with ⟨hrange, -⟩ | ⟨-, habort⟩
      · exact hrange
      · cases habort.symm.trans h
    · exact (exec_sw_writesWord h).1
  · intro hrange
    cases hexec : exec i s with
    | next t => exact ⟨t, rfl⟩
    | fault f =>
      rcases exec_fault hexec with ⟨rt, imm, rs, hi, hout, -⟩ | ⟨rt, imm, rs, hi, hout, -⟩
      · cases hout.symm.trans (hrange rt imm rs (.inl hi))
      · cases hout.symm.trans (hrange rt imm rs (.inr hi))
    | refused r => exact absurd hexec (exec_not_refused i s r)

/-- Settles O41: a step that completes found the end of the program or executed an instruction that completes. -/
theorem softwareRulesPreventAborts : Obligations.SoftwareRulesPreventAborts := by
  intro s
  simp only [← addressInRange_iff, ← exec_completes_iff]
  constructor
  · rintro ⟨t, h⟩
    rcases step_next h with ⟨hend, -⟩ | ⟨w, i, hfetch, hdecode, hexec⟩
    · exact .inl hend
    · exact .inr ⟨w, i, hfetch, hdecode, t, hexec⟩
  · rintro (hend | ⟨w, i, hfetch, hdecode, t, hexec⟩)
    · exact ⟨s, step_of_fetch_none hend⟩
    · exact ⟨t, (step_of_decode_ok hfetch hdecode).trans hexec⟩

/-! ### The pc a step leaves -/

/-- The four paths of the pc: the next instruction, a branch, a jump, and JR's register (R94, R95, R98, R101). -/
theorem exec_pc (h : exec i s = .next t) :
    t.pc = nextPc s.pc ∨ (∃ imm, t.pc = branchTarget s.pc imm) ∨ (∃ address, t.pc = jumpTarget s.pc address) ∨
      ∃ rs, i = .jr rs ∧ t.pc = s.reg rs := by
  cases i with
  | add | sub | and | or | slt | nor => exact .inl (Host.Outcome.next.inj h ▸ rfl)
  | lw rt imm rs =>
    rcases execLw_cases s rt imm rs with ⟨-, e⟩ | ⟨-, e⟩
    · exact .inl (Host.Outcome.next.inj (e.symm.trans h) ▸ rfl)
    · cases e.symm.trans h
  | sw => exact .inl (exec_sw_writesWord h).2.pc
  | beq rs rt imm =>
    rw [exec_beq] at h
    obtain rfl := Host.Outcome.next.inj h
    rw [State.endCycle_pc]
    split_ifs
    · exact .inr (.inl ⟨imm, rfl⟩)
    · exact .inl rfl
  | j address => exact .inr (.inr (.inl ⟨address, Host.Outcome.next.inj h ▸ rfl⟩))
  | jal address => exact .inr (.inr (.inl ⟨address, Host.Outcome.next.inj h ▸ rfl⟩))
  | jr rs => exact .inr (.inr (.inr ⟨rs, rfl, Host.Outcome.next.inj h ▸ rfl⟩))

/-- `pc + 4` is a multiple of 4 when the pc is: 2^32, where it wraps, is one (R26). -/
theorem nextPc_aligned {pc : Word} (h : pc.toNat % 4 = 0) : (nextPc pc).toNat % 4 = 0 := by
  unfold nextPc
  bv_omega

/-- A branch keeps the pc a multiple of 4 (R67). -/
theorem branchTarget_aligned {pc : Word} (imm : Imm) (h : pc.toNat % 4 = 0) : (branchTarget pc imm).toNat % 4 = 0 := by
  have hnext := nextPc_aligned h
  simp only [branchTarget, branchOffset, BitVec.toNat_add, BitVec.toNat_shiftLeft, Nat.shiftLeft_eq]
  omega

/-- A jump target is a multiple of 4, whatever the pc (R68). -/
theorem jumpTarget_aligned (pc : Word) (address : JumpField) : (jumpTarget pc address).toNat % 4 = 0 := by
  rw [jumpTarget, BitVec.toNat_append, Nat.shiftLeft_eq]
  simp

/-- Settles O33: the end of the program and three of the four paths of the pc keep it a multiple of 4. -/
theorem misalignedPcOnlyFromJr : Obligations.MisalignedPcOnlyFromJr := by
  intro s t h haligned hmisaligned
  rcases step_next h with ⟨-, rfl⟩ | ⟨w, i, hfetch, hdecode, hexec⟩
  · exact absurd haligned hmisaligned
  rcases exec_pc hexec with hpc | ⟨imm, hpc⟩ | ⟨address, hpc⟩ | ⟨rs, rfl, hpc⟩
  · exact absurd (hpc ▸ nextPc_aligned haligned) hmisaligned
  · exact absurd (hpc ▸ branchTarget_aligned imm haligned) hmisaligned
  · exact absurd (hpc ▸ jumpTarget_aligned s.pc address) hmisaligned
  · exact ⟨w, rs, hfetch, hdecode, hpc⟩

/-! ### The step of the datapath (R83) -/

/-- The R-type's row of the control table (R86). -/
theorem controlUnit_rType :
    controlUnit opRType = some ⟨true, false, false, true, false, false, false, false, false, .rType⟩ := rfl

/-- An R-type word whose funct selects an ALU operation (R88, R120). -/
theorem datapathWord_aluRType {op : AluOp} (hop : opcodeOf w = opRType)
    (hselect : aluControl .rType (functOf w) = some (.operation op)) :
    datapathWord w s = aluRType op (rdOf w) (rsOf w) (rtOf w) s := by
  simp only [datapathWord, hop, controlUnit_rType, hselect]
  rfl

/-- An R-type word whose funct is JR's (R94). -/
theorem datapathWord_jr (hop : opcodeOf w = opRType) (hselect : aluControl .rType (functOf w) = some .jumpRegister) :
    datapathWord w s = execJr (rsOf w) s := by
  simp only [datapathWord, hop, controlUnit_rType, hselect]
  rfl

/-- With `alusrc` set, the ALU's sum is the effective address (R91, R130). -/
theorem executor_add_of_alusrc {c : ControlSignals} (hsource : c.alusrc = true) :
    executor c .add w s = effectiveAddress (s.reg (rsOf w)) (immOf w) := by
  rw [executor, operand2, if_pos hsource]
  rfl

/-- A load reads the same word before and after the records are cleared. -/
@[simp] theorem State.beginCycle_memRead (a : Word) : s.beginCycle.memRead a = s.memRead a := rfl

/-- LW's word: the sum is the address, and the MemoryStage's word is written back (R96, R97). -/
theorem datapathWord_lw (hop : opcodeOf w = opLw) : datapathWord w s = execLw (rtOf w) (immOf w) (rsOf w) s := by
  have hcontrol : controlUnit opLw = some ⟨false, true, true, true, true, false, false, false, false, .iAdd⟩ := rfl
  simp only [datapathWord, hop, hcontrol, aluControl, executePath, executor_add_of_alusrc, memoryStage, execLw,
    State.beginCycle_memRead]
  cases s.memRead (effectiveAddress (s.reg (rsOf w)) (immOf w)) <;> rfl

/-- SW's word: the sum is the address, and nothing is written back (R96, R97). -/
theorem datapathWord_sw (hop : opcodeOf w = opSw) : datapathWord w s = execSw (rtOf w) (immOf w) (rsOf w) s := by
  have hcontrol : controlUnit opSw = some ⟨false, true, false, false, false, true, false, false, false, .iAdd⟩ := rfl
  simp only [datapathWord, hop, hcontrol, aluControl, executePath, executor_add_of_alusrc, memoryStage, execSw]
  cases s.beginCycle.memWrite (effectiveAddress (s.reg (rsOf w)) (immOf w)) (s.reg (rtOf w)) <;> rfl

/-- BEQ's word: the zero flag of the difference chooses the pc, and no stage stores or writes back (R95 to R98). -/
theorem datapathWord_beq (hop : opcodeOf w = opBeq) : datapathWord w s = execBeq (rsOf w) (rtOf w) (immOf w) s := by
  have hcontrol : controlUnit opBeq = some ⟨false, false, false, false, false, false, true, false, false, .iSub⟩ := rfl
  have hresult {c : ControlSignals} (hsource : c.alusrc = false) :
      executor c .sub w s = alu .sub (s.reg (rsOf w)) (s.reg (rtOf w)) := by
    simp [executor, operand2, hsource]
  simp only [datapathWord, hop, hcontrol, aluControl, executePath, hresult, execBeq, Bool.true_and]
  cases aluZero (alu .sub (s.reg (rsOf w)) (s.reg (rtOf w))) <;> rfl

/-- J's word takes the jump path and links nothing (R89, R101). -/
theorem datapathWord_j (hop : opcodeOf w = opJ) : datapathWord w s = execJ (addressOf w) s := by
  rw [datapathWord, hop]
  rfl

/-- JAL's word takes the jump path and links register 31 (R89, R90, R101). -/
theorem datapathWord_jal (hop : opcodeOf w = opJal) : datapathWord w s = execJal (addressOf w) s := by
  rw [datapathWord, hop]
  rfl

/-- A word that decodes does on the datapath what its instruction means. -/
theorem datapathWord_of_decode_ok (h : decode w = .ok i) : datapathWord w s = exec i s := by
  rcases decode_ok h with ⟨hop, hr⟩ | ⟨hop, rfl⟩ | ⟨hop, rfl⟩ | ⟨hop, rfl⟩ | ⟨hop, rfl⟩ | ⟨hop, rfl⟩
  · rcases decodeRType_ok hr with ⟨hfn, rfl⟩ | ⟨hfn, rfl⟩ | ⟨hfn, rfl⟩ | ⟨hfn, rfl⟩ | ⟨hfn, rfl⟩ | ⟨hfn, rfl⟩ |
      ⟨hfn, rfl⟩
    case inr.inr.inr.inr.inr.inr => exact datapathWord_jr hop (by rw [hfn]; rfl)
    all_goals exact datapathWord_aluRType hop (by rw [hfn]; rfl)
  · exact datapathWord_lw hop
  · exact datapathWord_sw hop
  · exact datapathWord_beq hop
  · exact datapathWord_j hop
  · exact datapathWord_jal hop

/-- A word the decoder rejects aborts alike on the datapath, at the ControlUnit or the ALUControl (R86, R88). -/
theorem datapathWord_of_decode_error {r : Reject} (h : decode w = .error r) :
    datapathWord w s = .fault (faultOfReject s.pc r) := by
  rcases decode_error_iff.1 h with ⟨hop, rfl⟩ | ⟨hzero, hfn, rfl⟩
  · rw [datapathWord, controlUnit_of_not_supported hop]
    rfl
  · have hop : opcodeOf w = opRType := hzero
    simp only [datapathWord, hop, controlUnit_rType, aluControl_rType_of_not_supported hfn]
    rfl

/-- Settles O16: by cases on the fetched item, and for a word on what it decodes to. -/
theorem datapathAgreesWithMeanings : Obligations.DatapathAgreesWithMeanings := by
  intro s
  cases hfetch : s.fetch with
  | none => rw [step_of_fetch_none hfetch, datapathStep, hfetch]
  | some x =>
    cases x with
    | malformed =>
      rw [step_of_malformed hfetch, datapathStep, hfetch]
      rfl
    | word w =>
      simp only [datapathStep, hfetch]
      cases hdecode : decode w with
      | ok i => rw [step_of_decode_ok hfetch hdecode, datapathWord_of_decode_ok hdecode]
      | error r => rw [step_of_decode_error hfetch hdecode, datapathWord_of_decode_error hdecode]

end Sys2Proof.Machine

/-! The end of a run (spec/50_interfaces.md section 5, spec/60_exceptions.md section 2): the state the driving loop ends
in, and what its fuel decides. -/

namespace Sys2Proof.Machine

/-- A run ends at the end of the program, in an abort or for want of fuel (R158). -/
theorem drive_ended_cases (n : Nat) (s : State) :
    ((drive n s).ended = .endOfProgram ∧ (drive n s).final.atEnd = true) ∨
    (∃ f, (drive n s).ended = .aborted f ∧ (drive n s).final.atEnd = false ∧ step (drive n s).final = .fault f) ∨
    (drive n s).ended = .outOfFuel := by
  induction n generalizing s with
  | zero => exact .inr (.inr rfl)
  | succ n ih =>
    rcases drive_cases n s with ⟨hend, hrun⟩ | ⟨t, -, -, hrun⟩ | ⟨f, hnotEnd, hstep, hrun⟩
    · exact .inl (by rw [hrun]; exact ⟨rfl, hend⟩)
    · rw [hrun]
      exact ih t
    · exact .inr (.inl ⟨f, by rw [hrun]; exact ⟨rfl, hnotEnd, hstep⟩⟩)

/-- Settles O56: the state a run ended in is at the end of the program or aborts, and a later run starts there. -/
theorem endedRunsAreOver : Obligations.EndedRunsAreOver := by
  intro n s
  rcases drive_ended_cases n s with ⟨hended, hend⟩ | ⟨g, hended, hnotEnd, hstep⟩ | hended
  · exact ⟨fun _ => ⟨hend, step_of_fetch_none ((State.atEnd_iff _).1 hend)⟩, by simp [hended], by simp [hended]⟩
  · refine ⟨by simp [hended], fun f h => ?_, by simp [hended]⟩
    obtain rfl : g = f := RunEnd.aborted.inj (hended.symm.trans h)
    exact ⟨hstep, fun m => drive_fault m hnotEnd hstep⟩
  · simp [hended]

/-- Settles O57, by induction on the fuel: each turn of the loop is the same whatever fuel is left. -/
theorem fuelOnlyBoundsTheRun : Obligations.FuelOnlyBoundsTheRun := by
  intro n m s h
  induction n generalizing s with
  | zero => exact absurd rfl h
  | succ n ih =>
    rw [Nat.add_right_comm]
    rcases drive_cases n s with ⟨hend, hrun⟩ | ⟨t, hnotEnd, hstep, hrun⟩ | ⟨f, hnotEnd, hstep, hrun⟩
    · rw [hrun, drive_atEnd _ hend]
    · rw [hrun] at h ⊢
      rw [drive_next _ hnotEnd hstep, ih t h]
    · rw [hrun, drive_fault _ hnotEnd hstep]

end Sys2Proof.Machine
